-- ==== Sys2Proof/Word.lean ====
section
/-! DEFINITION. The data sizes of the SC91-A (spec/00_scope.md R6): a byte is 8 bits, a word 16, a double
word 32. Registers, addresses and instruction words are double words. -/

namespace Sys2Proof

/-- A 32-bit register value, address or instruction word (R6: "32 double word registers (32b width)"). -/
abbrev Word := BitVec 32

/-- One byte of memory (R6, R50). -/
abbrev Byte := BitVec 8

end Sys2Proof
end

