-- ==== Sys2Proof/Config.lean ====
section
/-! DEFINITION. What an implementation fixes and what the spec leaves open: the parameters of
spec/00_scope.md (table after R4). A parameter with a value here is a choice of the model (the log entry
named with it says so); an `opaque` one is a free value: nothing can be proved of what it is. The other
policies of that table are chosen where they act: FILLER_POLICY in Decode.lean, MEMMAP (a field of the state) in
Machine/State.lean, MISALIGNED_DATA, R02_DEST_POLICY and ROT_MULTISTEP in the operations they govern. -/

namespace Sys2Proof.Config

/-- NREGS, the number of implemented registers (R4: "By default all 32 registers are available").
DESIGN CHOICE, log entry 2. -/
def nregs : Nat := 32

/-- RESET_PC, a multiple of 4 (R41). DESIGN CHOICE, unsafe, log entry 5. -/
def resetPc : Word := 0

/-- RESET_SP (R41). DESIGN CHOICE, unsafe, log entry 6. -/
def resetSp : Word := 0

/-- RESET_FLAGS, with EI and bits 30:11 zero as R41 and R290 require; the eleven flags 0 are a DESIGN
CHOICE, unsafe, log entry 6. -/
def resetFlags : Word := 0

/-- R03 to R31 after reset, which R41 leaves unspecified. DESIGN CHOICE, unsafe, log entry 7. -/
def resetGeneral : Word := 0

/-- What a byte of memory that nothing has written reads as (R41, R58: contents not in the source).
DESIGN CHOICE, unsafe, log entry 4. -/
def unwrittenByte : Byte := 0

/-- FLAGS_AUX_LOGIC (R33): for the draw of a given number and the instruction's operands, a value for each
flag, at the flag's own bit number in R02. Free value, log entry 8; so are all the constants below. -/
opaque flagsAuxLogic : Nat → List Word → BitVec 11

/-- FLAGS_AUX_ROT (R33, R126). Free value, log entry 8. -/
opaque flagsAuxRot : Nat → List Word → BitVec 11

/-- FLAGS_AUX_MUL (R33, R144). Free value, log entry 8. -/
opaque flagsAuxMul : Nat → List Word → BitVec 11

/-- FLAGS_AUX_DIV (R33, R145). Free value, log entry 8. -/
opaque flagsAuxDiv : Nat → List Word → BitVec 11

/-- FLAGS_AUX_CPYB (R33, R161). Free value, log entry 8. -/
opaque flagsAuxCpyb : Nat → List Word → BitVec 11

/-- DIV_ZERO (R147 a): the value Rdd takes after a division by zero. Free value, log entry 9. -/
opaque divZeroResult : Nat → List Word → Word

/-- DIV_ZERO (R147 a): the eleven flags after a division by zero. Free value, log entry 9. -/
opaque divZeroFlags : Nat → List Word → BitVec 11

/-- DIV_OVERFLOW (R147 b): the value Rdd takes after the signed division -2^31 / -1. Free value, log
entry 9. -/
opaque divOverflowResult : Nat → List Word → Word

/-- DIV_OVERFLOW (R147 b): the eleven flags after -2^31 / -1. Free value, log entry 9. -/
opaque divOverflowFlags : Nat → List Word → BitVec 11

/-- R62, R294 (tag U17): for each of the 4 bytes of an instruction that the instruction before it has
overwritten (bit 3 for the byte at the lowest address), whether the fetch sees the old byte. Free value,
log entry 28. -/
opaque fetchSeesOld : Nat → List Word → BitVec 4

end Sys2Proof.Config
end

