-- ==== Sys2Proof/Syntax.lean ====
section
/-! DEFINITION. The 22 natural instructions (spec/00_scope.md R2, spec/opcode_table.json), one constructor
each, with the operands of spec/30_encoding.md R73 to R81 and no raw mode bits: only the assigned values of
a mode field (R81) have a name. -/

namespace Sys2Proof

/-- A register number, 0 to 31 for R00 to R31 (R21: "encoded with 5 bits"). -/
abbrev RegNum := Fin 32

/-- The number of a bit of a 32-bit value, 0 to 31 (R5, R79). -/
abbrev BitNum := Fin 32

/-- How LOADd places its 16-bit value (R81, R101). -/
inductive ImmMode where
  | low | high | signed | unsigned
deriving DecidableEq, Repr

/-- The size and extension of a LOADr or LOADm (R81, R102, R103): 8u, 8s, 16u, 16s, 32. -/
inductive LoadMode where
  | u8 | s8 | u16 | s16 | w32
deriving DecidableEq, Repr

/-- The size of a STORE: 8, 16 or 32 bits (R81, R104). -/
inductive StoreMode where
  | b8 | b16 | b32
deriving DecidableEq, Repr

/-- The direction of a ROT (R81, R123). -/
inductive RotDir where
  | left | right
deriving DecidableEq, Repr

/-- What enters at the vacated end in a ROT (R81, R124). -/
inductive RotMode where
  | rot | zero | one | carry | sign
deriving DecidableEq, Repr

/-- The mode of an ADDr: `+`, `-`, `c`, `c+`, `c-` (R81, R140). -/
inductive AddMode where
  | add | sub | cmp | addc | subc
deriving DecidableEq, Repr

/-- The signedness of a MUL or DIV (R81, R144, R145). -/
inductive SignMode where
  | signed | unsigned
deriving DecidableEq, Repr

/-- Which part of a division DIV stores (R81, R145). -/
inductive DivType where
  | normal | rest | result
deriving DecidableEq, Repr

/-- Whether CPYB clears (`0`) or keeps (`=`) the other bits of its destination (R81, R160). -/
inductive CopyMode where
  | clear | keep
deriving DecidableEq, Repr

/-- The test of a JB: `bit`, `+Z`, `-Z`, `G`, `LE` (R81, R164). -/
inductive JumpMode where
  | bit | plusZ | minusZ | g | le
deriving DecidableEq, Repr

/-- The natural instruction set. `d`, `n`, `m` are the fields Rdd, Rnn, Rmm (R71). -/
inductive Instr where
  | loadd (d : RegNum) (imm : BitVec 16) (mode : ImmMode)
  | loadr (d n : RegNum) (mode : LoadMode)
  | loadm (d m : RegNum) (mode : LoadMode)
  | store (n m : RegNum) (mode : StoreMode)
  | and (d n m : RegNum)
  | or (d n m : RegNum)
  | xor (d n m : RegNum)
  | rot (d n : RegNum) (step : Fin 32) (dir : RotDir) (mode : RotMode)
  | addr (d n m : RegNum) (mode : AddMode)
  | addd (d n : RegNum) (value : BitVec 16)
  | mul (d n m : RegNum) (mode : SignMode)
  | div (d n m : RegNum) (mode : SignMode) (part : DivType)
  | cpyb (d n : RegNum) (dbit : BitNum) (mode : CopyMode) (sbit : BitNum)
  | jmpd (addr30 : BitVec 30)
  | jmpr (m : RegNum)
  | jb (mode : JumpMode) (v : Bool) (bit : BitNum) (n : RegNum) (addr : BitVec 14)
  | push (n : RegNum)
  | pop (d : RegNum)
  | call (addr30 : BitVec 30)
  | callr (m : RegNum)
  | ret
  | nop
deriving DecidableEq, Repr

end Sys2Proof
end

