-- ==== Sys2Proof/WellFormed.lean ====
section
/-! DEFINITION. Which instructions the spec gives a behaviour: every register field names an implemented
register (spec/00_scope.md R4), LOADm does not have R00 as destination (spec/40_load_store.md R103), and ROT
in mode sign goes right (spec/41_logic_rotate.md R127 b). The unassigned mode values (R83) cannot be written
as an `Instr` at all. -/

namespace Sys2Proof

/-- The register numbers in the register fields of an instruction (R73). ROT's step and CPYB's and JB's bit
numbers are no registers. -/
def Instr.registers : Instr → List RegNum
  | .loadd d _ _ => [d]
  | .loadr d n _ => [d, n]
  | .loadm d m _ => [d, m]
  | .store n m _ => [n, m]
  | .and d n m => [d, n, m]
  | .or d n m => [d, n, m]
  | .xor d n m => [d, n, m]
  | .rot d n _ _ _ => [d, n]
  | .addr d n m _ => [d, n, m]
  | .addd d n _ => [d, n]
  | .mul d n m _ => [d, n, m]
  | .div d n m _ _ => [d, n, m]
  | .cpyb d n _ _ _ => [d, n]
  | .jmpd _ => []
  | .jmpr m => [m]
  | .jb _ _ _ n _ => [n]
  | .push n => [n]
  | .pop d => [d]
  | .call _ => []
  | .callr m => [m]
  | .ret => []
  | .nop => []

/-- R4: every register field names one of the first `nregs` registers (tag U20 otherwise). -/
def Instr.registersBelow (nregs : Nat) (i : Instr) : Bool :=
  i.registers.all fun r => decide (r.val < nregs)

/-- R103: "LOADm is not allowed on R00" (tag U5 otherwise). -/
def Instr.loadmDestOk : Instr → Bool
  | .loadm d _ _ => d != 0
  | _ => true

/-- R127 (b): in mode sign "Only right direction make sense" (tag U4 otherwise). -/
def Instr.rotSignOk : Instr → Bool
  | .rot _ _ _ .left .sign => false
  | _ => true

/-- Well-formedness in a machine with `nregs` registers. -/
def Instr.wellFormedFor (nregs : Nat) (i : Instr) : Bool :=
  i.registersBelow nregs && i.loadmDestOk && i.rotSignOk

/-- Well-formedness in the machine modelled, `Config.nregs` registers. -/
def Instr.wellFormed (i : Instr) : Bool := i.wellFormedFor Config.nregs

end Sys2Proof
end

