-- ==== Sys2Proof/Decode.lean ====
section
/-! DEFINITION. Decoding and encoding of the 32-bit instruction words, from the formats and tables of
spec/30_encoding.md (R70 to R86). The decoder is total and rejects by name; the encoder writes the word the
assembler writes, with zero filler. -/

namespace Sys2Proof

/-- Why a word is no instruction. None of these is a hardware trap (spec/60_exceptions.md R270, R271). -/
inductive DecodeError where
  /-- U1: the instruction code, or a constant one of PUSH, POP or RET, is not a listed one (R82). -/
  | unassignedCode
  /-- U2: a listed instruction with an unlisted mode or type value (R83). -/
  | unassignedMode
  /-- U1 under `FillerPolicy.strict` only: a filler bit is not zero (R86). -/
  | fillerNotZero
  /-- U20: a register field names a register at or above NREGS (R4). -/
  | absentRegister
  /-- Fewer than the 4 bytes of an instruction were given (R70). -/
  | incompleteWord
deriving DecidableEq, Repr

/-- FILLER_POLICY (R86): whether a non-zero filler bit is checked. -/
inductive FillerPolicy where
  | strict | ignore
deriving DecidableEq, Repr

/-- The hardware as the manual words it ignores filler ("fill with some 0 but this is not mandatory",
R85, R86). DESIGN CHOICE, log entry 1. -/
def fillerPolicy : FillerPolicy := .ignore

/-! ## Fields -/

/-- A 5-bit register number whose lowest bit is bit `lo` of the word (R71, R79). -/
def regField (w : Word) (lo : Nat) : RegNum := (w.extractLsb' lo 5).toFin

/-- LOADd's mode, bits 2:1 (R81): every value is assigned. -/
def ImmMode.ofBits (b : BitVec 2) : ImmMode :=
  if b = 0b00#2 then .low else if b = 0b01#2 then .high else if b = 0b10#2 then .signed else .unsigned

/-- LOADr's and LOADm's mode, bits 8:6 (R81). -/
def LoadMode.ofBits (b : BitVec 3) : Option LoadMode :=
  if b = 0b000#3 then some .u8 else if b = 0b100#3 then some .s8
  else if b = 0b001#3 then some .u16 else if b = 0b101#3 then some .s16
  else if b = 0b010#3 then some .w32 else none

/-- STORE's mode, bits 8:7 (R81). -/
def StoreMode.ofBits (b : BitVec 2) : Option StoreMode :=
  if b = 0b00#2 then some .b8 else if b = 0b01#2 then some .b16
  else if b = 0b10#2 then some .b32 else none

/-- ROT's direction, bit 8 (R81). -/
def RotDir.ofBits (b : BitVec 1) : RotDir := if b = 0b0#1 then .left else .right

/-- ROT's mode, bits 7:5 (R81). -/
def RotMode.ofBits (b : BitVec 3) : Option RotMode :=
  if b = 0b000#3 then some .rot else if b = 0b010#3 then some .zero
  else if b = 0b011#3 then some .one else if b = 0b100#3 then some .carry
  else if b = 0b101#3 then some .sign else none

/-- ADDr's mode, bits 8:6 (R81). -/
def AddMode.ofBits (b : BitVec 3) : Option AddMode :=
  if b = 0b000#3 then some .add else if b = 0b100#3 then some .sub
  else if b = 0b110#3 then some .cmp else if b = 0b001#3 then some .addc
  else if b = 0b101#3 then some .subc else none

/-- MUL's and DIV's mode, bits 8:7 (R81). -/
def SignMode.ofBits (b : BitVec 2) : Option SignMode :=
  if b = 0b00#2 then some .signed else if b = 0b10#2 then some .unsigned else none

/-- DIV's type, bits 6:5 (R81). -/
def DivType.ofBits (b : BitVec 2) : Option DivType :=
  if b = 0b11#2 then some .normal else if b = 0b01#2 then some .rest
  else if b = 0b10#2 then some .result else none

/-- CPYB's mode, bits 8:7 (R81). -/
def CopyMode.ofBits (b : BitVec 2) : Option CopyMode :=
  if b = 0b00#2 then some .clear else if b = 0b10#2 then some .keep else none

/-- JB's mode, bits 27:25 (R81). -/
def JumpMode.ofBits (b : BitVec 3) : Option JumpMode :=
  if b = 0b000#3 then some .bit else if b = 0b010#3 then some .plusZ
  else if b = 0b011#3 then some .minusZ else if b = 0b110#3 then some .g
  else if b = 0b111#3 then some .le else none

/-! ## The decoder -/

/-- An instruction whose mode field is assigned, or U2 (R83). -/
def orUnassignedMode : Option Instr → Except DecodeError Instr
  | some i => .ok i
  | none => .error .unassignedMode

/-- The instructions with an 8-bit code at or above 0xE0 (R72, R80). PUSH, POP and RET are told apart by
their constant ones (R73, R86): PUSH has bits 9 and 8, POP bits 9 and 7, RET bit 10 and Rdd zero. -/
def decodeCode8 (w : Word) : Except DecodeError Instr :=
  let code := w.extractLsb' 24 8
  let d := regField w 19
  let n := regField w 14
  let m := regField w 9
  if code = 0xE0#8 then
    orUnassignedMode ((CopyMode.ofBits (w.extractLsb' 7 2)).map fun mode => .cpyb d n m mode (regField w 0))
  else if code = 0xE4#8 then
    if w.extractLsb' 8 2 = 0b11#2 then .ok (.push n) else .error .unassignedCode
  else if code = 0xE5#8 then
    if w.extractLsb' 9 1 = 1#1 ∧ w.extractLsb' 7 1 = 1#1 then .ok (.pop d)
    else if w.extractLsb' 19 5 = 0#5 ∧ w.extractLsb' 10 1 = 1#1 then .ok .ret
    else .error .unassignedCode
  else if code = 0xE8#8 then .ok (.jmpr m)
  else if code = 0xE9#8 then .ok (.callr m)
  else if code = 0xEC#8 then
    orUnassignedMode ((StoreMode.ofBits (w.extractLsb' 7 2)).map fun mode => .store n m mode)
  else if code = 0xF1#8 then .ok (.and d n m)
  else if code = 0xF2#8 then .ok (.or d n m)
  else if code = 0xF3#8 then .ok (.xor d n m)
  else if code = 0xF4#8 then
    orUnassignedMode ((RotMode.ofBits (w.extractLsb' 5 3)).map fun mode =>
      .rot d n m (RotDir.ofBits (w.extractLsb' 8 1)) mode)
  else if code = 0xF8#8 then
    orUnassignedMode ((SignMode.ofBits (w.extractLsb' 7 2)).map fun mode => .mul d n m mode)
  else if code = 0xF9#8 then
    orUnassignedMode ((SignMode.ofBits (w.extractLsb' 7 2)).bind fun mode =>
      (DivType.ofBits (w.extractLsb' 5 2)).map fun part => .div d n m mode part)
  else if code = 0xFC#8 then .ok (.loadd d (w.extractLsb' 3 16) (ImmMode.ofBits (w.extractLsb' 1 2)))
  else if code = 0xFD#8 then
    orUnassignedMode ((LoadMode.ofBits (w.extractLsb' 6 3)).map fun mode => .loadm d m mode)
  else if code = 0xFE#8 then
    orUnassignedMode ((LoadMode.ofBits (w.extractLsb' 6 3)).map fun mode => .loadr d n mode)
  else if code = 0xFF#8 then .ok .nop
  else .error .unassignedCode

/-- The prefix code of R72: bits 31:30 first, then bit 29, then the 8-bit codes. Filler is not looked at. -/
def decodeFields (w : Word) : Except DecodeError Instr :=
  if w.extractLsb' 30 2 = 0b00#2 then .ok (.jmpd (w.extractLsb' 0 30))
  else if w.extractLsb' 30 2 = 0b01#2 then .ok (.call (w.extractLsb' 0 30))
  else if w.extractLsb' 29 3 = 0b100#3 then
    if w.extractLsb' 24 8 = 0x80#8 then
      orUnassignedMode ((AddMode.ofBits (w.extractLsb' 6 3)).map fun mode =>
        .addr (regField w 19) (regField w 14) (regField w 9) mode)
    else .error .unassignedCode
  else if w.extractLsb' 29 3 = 0b101#3 then
    .ok (.addd (regField w 19) (regField w 14) (w.extractLsb' 24 2 ++ w.extractLsb' 0 14))
  else if w.extractLsb' 29 3 = 0b110#3 then
    orUnassignedMode ((JumpMode.ofBits (w.extractLsb' 25 3)).map fun mode =>
      .jb mode (w.getLsbD 24) (regField w 19) (regField w 14) (w.extractLsb' 0 14))
  else decodeCode8 w

/-- One row of the encoding table of R86: the word's constant bits, the mask of them, and which of them are
filler. -/
structure EncodingRow where
  bits : Word
  mask : Word
  filler : Word
deriving DecidableEq, Repr

/-- `ident_mask = mask & ~filler` (R86). -/
def EncodingRow.identMask (r : EncodingRow) : Word := r.mask &&& ~~~r.filler

/-- The encoding table of R86 (spec/opcode_table.json), by instruction. -/
def Instr.row : Instr → EncodingRow
  | .loadd .. => ⟨0xFC000000, 0xFF000001, 0x00000001⟩
  | .loadr .. => ⟨0xFE000000, 0xFF003E3F, 0x00003E3F⟩
  | .loadm .. => ⟨0xFD000000, 0xFF07C03F, 0x0007C03F⟩
  | .store .. => ⟨0xEC000000, 0xFFF8007F, 0x00F8007F⟩
  | .and .. => ⟨0xF1000000, 0xFF0001FF, 0x000001FF⟩
  | .or .. => ⟨0xF2000000, 0xFF0001FF, 0x000001FF⟩
  | .xor .. => ⟨0xF3000000, 0xFF0001FF, 0x000001FF⟩
  | .rot .. => ⟨0xF4000000, 0xFF00001F, 0x0000001F⟩
  | .addr .. => ⟨0x80000000, 0xFF00003F, 0x0000003F⟩
  | .addd .. => ⟨0xA0000000, 0xFC000000, 0x1C000000⟩
  | .mul .. => ⟨0xF8000000, 0xFF00007F, 0x0000007F⟩
  | .div .. => ⟨0xF9000000, 0xFF00001F, 0x0000001F⟩
  | .cpyb .. => ⟨0xE0000000, 0xFF000060, 0x00000060⟩
  | .jmpd .. => ⟨0x00000000, 0xC0000000, 0x00000000⟩
  | .jmpr .. => ⟨0xE8000000, 0xFFFFC1FF, 0x00FFC1FF⟩
  | .jb .. => ⟨0xC0000000, 0xF0000000, 0x10000000⟩
  | .push .. => ⟨0xE4000300, 0xFFF83FFF, 0x00F83CFF⟩
  | .pop .. => ⟨0xE5000280, 0xFF07FFFF, 0x0007FD7F⟩
  | .call .. => ⟨0x40000000, 0xC0000000, 0x00000000⟩
  | .callr .. => ⟨0xE9000000, 0xFFFFC1FF, 0x00FFC1FF⟩
  | .ret => ⟨0xE5000400, 0xFFFFFFFF, 0x0007FBFF⟩
  | .nop => ⟨0xFF000000, 0xFFFFFFFF, 0x00FFFFFF⟩

/-- Under `ignore` every filler is accepted; under `strict` all constant bits are checked (R86). -/
def fillerAccepted (p : FillerPolicy) (w : Word) (i : Instr) : Bool :=
  match p with
  | .ignore => true
  | .strict => w &&& i.row.mask == i.row.bits

/-- Decoding under a given filler policy and register count (R86, R4). -/
def decodeUnder (p : FillerPolicy) (nregs : Nat) (w : Word) : Except DecodeError Instr :=
  match decodeFields w with
  | .error e => .error e
  | .ok i =>
    if !fillerAccepted p w i then .error .fillerNotZero
    else if !i.registersBelow nregs then .error .absentRegister
    else .ok i

/-- The decoder of the machine modelled. -/
def decodeWord (w : Word) : Except DecodeError Instr := decodeUnder fillerPolicy Config.nregs w

/-- The instruction at the head of a list of bytes, most significant byte first (R53, R70), and the bytes
after it. -/
def decode : List Byte → Except DecodeError (Instr × List Byte)
  | b0 :: b1 :: b2 :: b3 :: rest =>
    match decodeWord (b0 ++ b1 ++ b2 ++ b3) with
    | .ok i => .ok (i, rest)
    | .error e => .error e
  | _ => .error .incompleteWord

/-! ## The encoder -/

/-- A register or bit number as a 5-bit field (R79). -/
def numBits (r : Fin 32) : BitVec 5 := BitVec.ofFin r

/-- R81, LOADd. -/
def ImmMode.bits : ImmMode → BitVec 2
  | .low => 0b00 | .high => 0b01 | .signed => 0b10 | .unsigned => 0b11

/-- R81, LOADr and LOADm. -/
def LoadMode.bits : LoadMode → BitVec 3
  | .u8 => 0b000 | .s8 => 0b100 | .u16 => 0b001 | .s16 => 0b101 | .w32 => 0b010

/-- R81, STORE. -/
def StoreMode.bits : StoreMode → BitVec 2
  | .b8 => 0b00 | .b16 => 0b01 | .b32 => 0b10

/-- R81, ROT's direction. -/
def RotDir.bits : RotDir → BitVec 1
  | .left => 0 | .right => 1

/-- R81, ROT's mode. -/
def RotMode.bits : RotMode → BitVec 3
  | .rot => 0b000 | .zero => 0b010 | .one => 0b011 | .carry => 0b100 | .sign => 0b101

/-- R81, ADDr. -/
def AddMode.bits : AddMode → BitVec 3
  | .add => 0b000 | .sub => 0b100 | .cmp => 0b110 | .addc => 0b001 | .subc => 0b101

/-- R81, MUL and DIV. -/
def SignMode.bits : SignMode → BitVec 2
  | .signed => 0b00 | .unsigned => 0b10

/-- R81, DIV's type. -/
def DivType.bits : DivType → BitVec 2
  | .normal => 0b11 | .rest => 0b01 | .result => 0b10

/-- R81, CPYB. -/
def CopyMode.bits : CopyMode → BitVec 2
  | .clear => 0b00 | .keep => 0b10

/-- R81, JB. -/
def JumpMode.bits : JumpMode → BitVec 3
  | .bit => 0b000 | .plusZ => 0b010 | .minusZ => 0b011 | .g => 0b110 | .le => 0b111

/-- The word the assembler writes, fields from bit 31 down, filler zero (R73 to R77, R80, R81). -/
def encode : Instr → Word
  | .loadd d imm mode => 0xFC#8 ++ numBits d ++ imm ++ mode.bits ++ 0#1
  | .loadr d n mode => 0xFE#8 ++ numBits d ++ numBits n ++ 0#5 ++ mode.bits ++ 0#6
  | .loadm d m mode => 0xFD#8 ++ numBits d ++ 0#5 ++ numBits m ++ mode.bits ++ 0#6
  | .store n m mode => 0xEC#8 ++ 0#5 ++ numBits n ++ numBits m ++ mode.bits ++ 0#7
  | .and d n m => 0xF1#8 ++ numBits d ++ numBits n ++ numBits m ++ 0#9
  | .or d n m => 0xF2#8 ++ numBits d ++ numBits n ++ numBits m ++ 0#9
  | .xor d n m => 0xF3#8 ++ numBits d ++ numBits n ++ numBits m ++ 0#9
  | .rot d n step dir mode => 0xF4#8 ++ numBits d ++ numBits n ++ numBits step ++ dir.bits ++ mode.bits ++ 0#5
  | .addr d n m mode => 0x80#8 ++ numBits d ++ numBits n ++ numBits m ++ mode.bits ++ 0#6
  | .addd d n value =>
    0b101#3 ++ 0#3 ++ value.extractLsb' 14 2 ++ numBits d ++ numBits n ++ value.extractLsb' 0 14
  | .mul d n m mode => 0xF8#8 ++ numBits d ++ numBits n ++ numBits m ++ mode.bits ++ 0#7
  | .div d n m mode part => 0xF9#8 ++ numBits d ++ numBits n ++ numBits m ++ mode.bits ++ part.bits ++ 0#5
  | .cpyb d n dbit mode sbit =>
    0xE0#8 ++ numBits d ++ numBits n ++ numBits dbit ++ mode.bits ++ 0#2 ++ numBits sbit
  | .jmpd addr30 => 0b00#2 ++ addr30
  | .jmpr m => 0xE8#8 ++ 0#10 ++ numBits m ++ 0#9
  | .jb mode v bit n addr =>
    0b110#3 ++ 0#1 ++ mode.bits ++ BitVec.ofBool v ++ numBits bit ++ numBits n ++ addr
  | .push n => 0xE4#8 ++ 0#5 ++ numBits n ++ 0b00001100000000#14
  | .pop d => 0xE5#8 ++ numBits d ++ 0b0000000001010000000#19
  | .call addr30 => 0b01#2 ++ addr30
  | .callr m => 0xE9#8 ++ 0#10 ++ numBits m ++ 0#9
  | .ret => 0xE5000400
  | .nop => 0xFF000000

/-- An instruction word as the hardware stores it: 4 bytes, the most significant at the lowest address
(R53, R70). -/
def wordBytes (w : Word) : List Byte :=
  [w.extractLsb' 24 8, w.extractLsb' 16 8, w.extractLsb' 8 8, w.extractLsb' 0 8]

/-- What the decoder reads from an instruction whose bits are `w`, numbered as spec/opcode_table.json
numbers them (one 32-bit word, bit 0 the least significant), its bits at and above `nbits` zero. -/
def decodeTableWord (nbits w : Nat) : Option Instr :=
  match decode (wordBytes (BitVec.ofNat 32 (w % 2 ^ nbits))) with
  | .ok (i, _) => some i
  | .error _ => none

end Sys2Proof
end

