-- ==== Sys2Proof/Machine/State.lean ====
section
/-! DEFINITION. The state of the SC91-A (spec/10_state.md, spec/20_memory.md R50), the reasons a step can
stop, and the state after reset. All of it is plain data. -/

namespace Sys2Proof.Machine

/-- Memory: the bytes that differ from what an unwritten byte reads as, by rising address (R50; the
operations and the canonical form are in Machine/Memory.lean). -/
abbrev Memory := List Host.Cell

/-- A range of byte addresses that hold memory, `base` to `base + size - 1`. -/
structure Region where
  base : Nat
  size : Nat
deriving DecidableEq, Repr

/-- MEMMAP (R58): the byte addresses that exist, as the union of ranges. -/
abbrev MemMap := List Region

/-- Why the machine can stop with a fault. The hardware itself raises no exception (R270). -/
inductive Fault where
  /-- U16: a fetch, load or store, at this address, touches a byte address outside MEMMAP (R58: "a fault of its
  own"). Raised by `step`, LOADm, STORE, PUSH, POP, CALL, CALLr and RET when the state's `map` lacks a byte of
  the access; nothing of the instruction happens then. Safe. -/
  | noMemory (address : Word)
deriving DecidableEq, Repr

/-- Why the model gives a step no meaning. None is a hardware trap (R271). -/
inductive Refusal where
  /-- The instruction has no meaning in the model yet; raised by a refused arm of `exec` only. Safe. -/
  | notModelled (mnemonic : String)
  /-- U1, U2, U20: the fetched word is no instruction of the spec (R82, R83, R4); raised by `step`. Safe. -/
  | noInstruction (e : DecodeError)
  /-- U5: LOADm with destination R00, "LOADm is not allowed on R00" (R103); raised by LOADm. Safe. -/
  | loadmIntoR00
  /-- U4: ROT in mode sign to the left, "Only right direction make sense" (R127 b); raised by ROT. Safe. -/
  | rotSignLeft
deriving DecidableEq, Repr

/-- The whole machine. -/
structure State where
  /-- The register bank R00 to R31 (R21): R00 the program counter (R22), R01 the stack pointer (R26), R02 the
  flags and EI (R30), R03 to R31 general (R27). -/
  regs : Vector Word 32
  /-- The one memory (R50). -/
  mem : Memory
  /-- MEMMAP (R58), the parameter that says which byte addresses exist. No step changes it. -/
  map : MemMap
  /-- The instruction loading pipeline (R294): `some old` when the instruction just executed has changed the
  4 bytes of the instruction executed next, which held `old`; the next fetch may see either (R62). -/
  stale : Option Word
  /-- The model's own field: how many free values have been drawn (R33 calls them draws). -/
  draws : Nat
deriving DecidableEq, Repr

/-- The machine right after reset (R41, R290; the values the spec leaves open are in Config.lean) in a system with
the given MEMMAP and initial contents, which R58 has a model take as arguments. -/
def State.start (map : MemMap) (contents : Memory) : State where
  regs := (((Vector.replicate 32 Config.resetGeneral).set 0 Config.resetPc).set 1 Config.resetSp).set 2
    Config.resetFlags
  mem := contents
  map := map
  stale := none
  draws := 0

/-- The MEMMAP of `State.reset`: every 32-bit address exists. DESIGN CHOICE, log entry 3. -/
def wholeSpace : MemMap := [⟨0, 2 ^ 32⟩]

/-- The machine right after reset with the whole address space present and no contents given. -/
def State.reset : State := State.start wholeSpace []

end Sys2Proof.Machine
end

