-- ==== Sys2Proof/Machine/Memory.lean ====
section
/-! DEFINITION. The one linear byte-addressed memory (spec/20_memory.md): its canonical form, reading and
writing one byte, the map of existing addresses, and the 1-, 2- and 4-byte big-endian accesses. -/

namespace Sys2Proof.Machine

/-! ## Single bytes -/

/-- The byte at an address: the listed one, or what an unwritten byte reads as (log entry 4). -/
def Memory.read : Memory → Nat → Byte
  | [], _ => Config.unwrittenByte
  | (k, b) :: rest, a => if k = a then b else Memory.read rest a

/-- Insert a byte before the first higher address. -/
def Memory.insert : Memory → Nat → Byte → Memory
  | [], a, v => [(a, v)]
  | (k, b) :: rest, a, v => if a < k then (a, v) :: (k, b) :: rest else (k, b) :: Memory.insert rest a v

/-- Drop whatever is listed at an address. -/
def Memory.erase (m : Memory) (a : Nat) : Memory := m.filter fun c => c.1 != a

/-- Write one byte; a byte equal to the unwritten one is not listed, so that equal memories are equal
data. -/
def Memory.write (m : Memory) (a : Nat) (v : Byte) : Memory :=
  if v = Config.unwrittenByte then m.erase a else (m.erase a).insert a v

/-- Addresses strictly rise from a bound. -/
def Memory.risingFrom : Nat → Memory → Bool
  | _, [] => true
  | lo, (k, _) :: rest => decide (lo ≤ k) && Memory.risingFrom (k + 1) rest

/-- The canonical form: strictly rising 32-bit addresses (R50), and no byte listed that an unlisted address
would read as. -/
def Memory.wf (m : Memory) : Bool :=
  Memory.risingFrom 0 m && m.all fun c => decide (c.1 < 2 ^ 32) && c.2 != Config.unwrittenByte

/-! ## The address map -/

/-- The byte address exists (R58). -/
def MemMap.has (m : MemMap) (a : Nat) : Bool := m.any fun r => decide (r.base ≤ a) && decide (a < r.base + r.size)

/-- The byte addresses of an `n`-byte access at `a`, `a + k` being modulo 2^32 (R51, D4). -/
def span (a : Word) (n : Nat) : List Nat := (List.range n).map fun k => (a + BitVec.ofNat 32 k).toNat

/-- All bytes of an access exist (R58). No alignment is required: MISALIGNED_DATA = bytewise (R55, log entry
11). -/
def State.accessOk (s : State) (a : Word) (n : Nat) : Bool := (span a n).all s.map.has

/-! ## Big-endian accesses (R51, R52, R53) -/

/-- `MemRead(a, 1)` (R52). -/
def Memory.read8 (m : Memory) (a : Word) : BitVec 8 := m.read a.toNat

/-- `MemRead(a, 2)` (R52). -/
def Memory.read16 (m : Memory) (a : Word) : BitVec 16 := m.read8 a ++ m.read8 (a + 1)

/-- `MemRead(a, 4)` (R52, R53). -/
def Memory.read32 (m : Memory) (a : Word) : Word :=
  m.read8 a ++ m.read8 (a + 1) ++ m.read8 (a + 2) ++ m.read8 (a + 3)

/-- `MemWrite(a, 1, v)` (R51). -/
def Memory.write8 (m : Memory) (a : Word) (v : BitVec 8) : Memory := m.write a.toNat v

/-- `MemWrite(a, 2, v)` (R51). -/
def Memory.write16 (m : Memory) (a : Word) (v : BitVec 16) : Memory :=
  (m.write8 a (v.extractLsb' 8 8)).write8 (a + 1) (v.extractLsb' 0 8)

/-- `MemWrite(a, 4, v)` (R51). -/
def Memory.write32 (m : Memory) (a v : Word) : Memory :=
  (((m.write8 a (v.extractLsb' 24 8)).write8 (a + 1) (v.extractLsb' 16 8)).write8 (a + 2)
    (v.extractLsb' 8 8)).write8 (a + 3) (v.extractLsb' 0 8)

end Sys2Proof.Machine
end

