-- ==== Sys2Proof/Machine/Ops.lean ====
section
/-! DEFINITION. The named operations over registers, the stack and the loading pipeline. Taking an exception
and returning from one have no operation here: the machine has neither (spec/60_exceptions.md R270, R274,
R275). -/

namespace Sys2Proof.Machine

/-! ## Registers (spec/10_state.md R21 to R32) -/

/-- R00, the program counter (R27). -/
def pcReg : RegNum := 0

/-- R01, the stack pointer (R27). -/
def spReg : RegNum := 1

/-- R02, the flags and EI (R27). -/
def flagsReg : RegNum := 2

/-- The bits of R00 a write stores: instructions start on a multiple of 4 (R24). -/
def pcMask : Word := 0xFFFFFFFC

/-- The bits of R02 that exist: EI and the eleven flags; bits 30:11 are always 0 (R30, R31, R32). -/
def flagsMask : Word := 0x800007FF

/-- What a register holds after `v` is written to it: R00 drops the two low bits (R24), R02 the always-zero
bits (R32). -/
def storedIn (r : RegNum) (v : Word) : Word :=
  if r = pcReg then v &&& pcMask else if r = flagsReg then v &&& flagsMask else v

/-- `x[r]`, a register read as an operand (R9): R02 reads 0 in bits 30:11 (R31). -/
def State.readReg (s : State) (r : RegNum) : Word :=
  if r = flagsReg then s.regs[r.val] &&& flagsMask else s.regs[r.val]

/-- `x[r] <- v` (R9, R24, R32). A write to R00 is a jump. -/
def State.writeReg (s : State) (r : RegNum) (v : Word) : State :=
  { s with regs := s.regs.set r.val (storedIn r v) }

/-- The program counter: while an instruction executes, the address of the one after it (R22). -/
def State.pc (s : State) : Word := s.regs[0]

/-- Replace the memory. -/
def State.withMem (s : State) (m : Memory) : State := { s with mem := m }

/-! ## Single bits -/

/-- `w` with bit `i` replaced by `b`. -/
def setBit (w : Word) (i : Nat) (b : Bool) : Word :=
  if b then w ||| (1#32 <<< i) else w &&& ~~~(1#32 <<< i)

/-! ## The stack (R26; spec/44_stack_call_nop.md) -/

/-- Store a double word at R01, then add 4 to R01 (R180, R182, R183). -/
def State.pushWord (s : State) (v : Word) : State :=
  let a := s.readReg spReg
  (s.withMem (s.mem.write32 a v)).writeReg spReg (a + 4)

/-- The address the top of the stack is read from, R01 - 4 (R181, R184). -/
def State.topAddress (s : State) : Word := s.readReg spReg - 4

/-- Subtract 4 from R01, then load the double word there into `d`, in this order, so that `POP R01` ends with
the loaded value (R181). -/
def State.popInto (s : State) (d : RegNum) : State :=
  let a := s.topAddress
  (s.writeReg spReg a).writeReg d (s.mem.read32 a)

/-! ## Fetch and the loading pipeline (R22, R62, R294) -/

/-- For each of 4 bytes, most significant first, the byte of `old` where `pick` has a 1, of `new` where it
has a 0. -/
def mixBytes (pick : BitVec 4) (old new : Word) : Word :=
  (if pick.getLsbD 3 then old.extractLsb' 24 8 else new.extractLsb' 24 8) ++
  (if pick.getLsbD 2 then old.extractLsb' 16 8 else new.extractLsb' 16 8) ++
  (if pick.getLsbD 1 then old.extractLsb' 8 8 else new.extractLsb' 8 8) ++
  (if pick.getLsbD 0 then old.extractLsb' 0 8 else new.extractLsb' 0 8)

/-- The instruction word fetched at R00 (R53): what memory holds; where the instruction before has just
overwritten it, each byte is the old or the new one, a free choice (R62, U17, log entry 28). -/
def State.fetchWord (s : State) : Word :=
  match s.stale with
  | none => s.mem.read32 s.pc
  | some old => mixBytes (Config.fetchSeesOld s.draws [s.pc, old, s.mem.read32 s.pc]) old (s.mem.read32 s.pc)

/-- `R00 <- (a + 4) mod 2^32`, before the instruction executes (R22, R25); the fetched instruction has left
the pipeline. -/
def State.advance (s : State) : State :=
  { s.writeReg pcReg (s.pc + 4) with
    stale := none
    draws := match s.stale with
      | none => s.draws
      | some _ => s.draws + 1 }

/-- After an instruction that began with memory `before`: if it changed the 4 bytes of the instruction
executed next, the pipeline may hold their old content (R62, R294). -/
def State.notePipeline (s : State) (before : Memory) : State :=
  { s with
    stale :=
      if before.read32 s.pc = s.mem.read32 s.pc then none else some (before.read32 s.pc) }

/-- `notePipeline` on a step's outcome. -/
def settle (before : Memory) : Host.Outcome State Fault Refusal → Host.Outcome State Fault Refusal
  | .next t => .next (t.notePipeline before)
  | .fault f => .fault f
  | .refused r => .refused r

end Sys2Proof.Machine
end

