-- ==== Sys2Proof/Machine/Operands.lean ====
section
/-! DEFINITION. Operand forms: extension of values (spec/00_scope.md R7), immediates and jump targets
(spec/30_encoding.md R79), and the 1-, 2- and 4-byte memory operands (spec/20_memory.md R56). -/

namespace Sys2Proof.Machine

/-- LOADd's new register value: the 16-bit value placed or extended by the mode, `old` being the register
before (R101). -/
def loadImmediate (mode : ImmMode) (imm : BitVec 16) (old : Word) : Word :=
  match mode with
  | .low => old.extractLsb' 16 16 ++ imm
  | .high => imm ++ old.extractLsb' 0 16
  | .signed => imm.signExtend 32
  | .unsigned => imm.setWidth 32

/-- LOADr's value from a register's content (R102). -/
def extendRegister (mode : LoadMode) (v : Word) : Word :=
  match mode with
  | .u8 => (v.extractLsb' 0 8).setWidth 32
  | .s8 => (v.extractLsb' 0 8).signExtend 32
  | .u16 => (v.extractLsb' 0 16).setWidth 32
  | .s16 => (v.extractLsb' 0 16).signExtend 32
  | .w32 => v

/-- How many bytes a LOADm reads (R56). -/
def loadBytes : LoadMode → Nat
  | .u8 => 1 | .s8 => 1 | .u16 => 2 | .s16 => 2 | .w32 => 4

/-- LOADm's value from memory at `a` (R103, R56). -/
def loadMemory (mode : LoadMode) (m : Memory) (a : Word) : Word :=
  match mode with
  | .u8 => (m.read8 a).setWidth 32
  | .s8 => (m.read8 a).signExtend 32
  | .u16 => (m.read16 a).setWidth 32
  | .s16 => (m.read16 a).signExtend 32
  | .w32 => m.read32 a

/-- How many bytes a STORE writes (R56). -/
def storeBytes : StoreMode → Nat
  | .b8 => 1 | .b16 => 2 | .b32 => 4

/-- Memory after a STORE of register content `v` at `a`: the low 8, 16 or 32 bits, big-endian (R104, R51). -/
def storeMemory (mode : StoreMode) (m : Memory) (a v : Word) : Memory :=
  match mode with
  | .b8 => m.write8 a (v.extractLsb' 0 8)
  | .b16 => m.write16 a (v.extractLsb' 0 16)
  | .b32 => m.write32 a v

/-- ADDd's second operand, `sext_32(value)` (R79, R143). -/
def addImmediate (value : BitVec 16) : Word := value.signExtend 32

/-- JB's byte offset, `sext_32(addr ++ 00)` (R79, R164). -/
def jumpOffset (addr : BitVec 14) : Word := (addr ++ 0b00#2).signExtend 32

/-- The absolute target of JMPd and CALL, `addr30 ++ 00` (R79, R163, R182). -/
def absoluteTarget (addr30 : BitVec 30) : Word := addr30 ++ 0b00#2

/-- `zext_32(b)` of one bit (R7). -/
def bitWord (b : Bool) : Word := (BitVec.ofBool b).setWidth 32

end Sys2Proof.Machine
end

