-- ==== Sys2Proof/Machine/Flags.lean ====
section
/-! DEFINITION. The flags of R02 and every flag computation (spec/10_state.md R29, R30, R33 to R37). -/

namespace Sys2Proof.Machine

/-- The named bits of R02 (R30). -/
inductive Flag where
  | z | s8 | s16 | s32 | o8 | o16 | o32 | c8 | c16 | c32 | p | ei
deriving DecidableEq, Repr

/-- The bit number of a flag in R02 (R30). -/
def Flag.bit : Flag → Nat
  | .z => 0 | .s8 => 1 | .s16 => 2 | .s32 => 3
  | .o8 => 4 | .o16 => 5 | .o32 => 6
  | .c8 => 7 | .c16 => 8 | .c32 => 9
  | .p => 10 | .ei => 31

/-- `flag.F` (R9). -/
def State.flag (s : State) (f : Flag) : Bool := s.regs[2].getLsbD f.bit

/-- `flag.F <- b`, that bit alone (R9). -/
def State.setFlag (s : State) (f : Flag) (b : Bool) : State :=
  { s with regs := s.regs.set 2 (setBit s.regs[2] f.bit b) }

/-! ## Result flags (R35) -/

/-- How many of the 32 bits are 1. -/
def onesCount (v : Word) : Nat := (List.range 32).countP fun i => v.getLsbD i

/-- P: "=1 when results has an even number of 1" (R35). -/
def parityEven (v : Word) : Bool := onesCount v % 2 == 0

/-- `flags_result(r)`: Z, P, S8, S16, S32 (R35). -/
def State.flagsResult (s : State) (r : Word) : State :=
  ((((s.setFlag .z (r == 0)).setFlag .p (parityEven r)).setFlag .s8 (r.getLsbD 7)).setFlag .s16
    (r.getLsbD 15)).setFlag .s32 (r.getLsbD 31)

/-! ## Carries and overflows of additions and subtractions (R29) -/

/-- An integer outside the range of an `n`-bit two's-complement number. -/
def outsideSigned (n : Nat) (t : Int) : Bool := decide (t < -2 ^ (n - 1)) || decide (2 ^ (n - 1) - 1 < t)

/-- Cn after an addition: the low `n` bits and the carry in reach 2^n (R29). -/
def addCarry (n : Nat) (a b : Word) (cin : Bool) : Bool :=
  decide (2 ^ n ≤ (a.setWidth n).toNat + (b.setWidth n).toNat + cin.toNat)

/-- On after an addition (R29). -/
def addOverflow (n : Nat) (a b : Word) (cin : Bool) : Bool :=
  outsideSigned n ((a.setWidth n).toInt + (b.setWidth n).toInt + cin.toNat)

/-- Cn after a subtraction: the borrow (R29). -/
def subBorrow (n : Nat) (a b : Word) (bin : Bool) : Bool :=
  decide ((a.setWidth n).toNat < (b.setWidth n).toNat + bin.toNat)

/-- On after a subtraction (R29). -/
def subOverflow (n : Nat) (a b : Word) (bin : Bool) : Bool :=
  outsideSigned n ((a.setWidth n).toInt - (b.setWidth n).toInt - bin.toNat)

/-- `flags_add(a, b, cin)` (R29). -/
def State.flagsAdd (s : State) (a b : Word) (cin : Bool) : State :=
  (((((s.setFlag .c8 (addCarry 8 a b cin)).setFlag .c16 (addCarry 16 a b cin)).setFlag .c32
    (addCarry 32 a b cin)).setFlag .o8 (addOverflow 8 a b cin)).setFlag .o16
    (addOverflow 16 a b cin)).setFlag .o32 (addOverflow 32 a b cin)

/-- `flags_sub(a, b, bin)` (R29). -/
def State.flagsSub (s : State) (a b : Word) (bin : Bool) : State :=
  (((((s.setFlag .c8 (subBorrow 8 a b bin)).setFlag .c16 (subBorrow 16 a b bin)).setFlag .c32
    (subBorrow 32 a b bin)).setFlag .o8 (subOverflow 8 a b bin)).setFlag .o16
    (subOverflow 16 a b bin)).setFlag .o32 (subOverflow 32 a b bin)

/-! ## Flags the spec leaves open (R33) -/

/-- Set each listed flag to the bit `values` has at the flag's own bit number. -/
def State.setFlags (s : State) (values : BitVec 11) (flags : List Flag) : State :=
  flags.foldl (fun t f => t.setFlag f (values.getLsbD f.bit)) s

/-- Count one free value as drawn. -/
def State.drawn (s : State) : State := { s with draws := s.draws + 1 }

/-- Draw a value, any the operands may give (R33), and give the listed flags their bits of it (log entry 8). -/
def State.drawFlags (s : State) (source : Nat → List Word → BitVec 11) (operands : List Word)
    (flags : List Flag) : State :=
  (s.setFlags (source s.draws operands) flags).drawn

/-- The flags FLAGS_AUX_LOGIC supplies (R33). -/
def auxLogicFlags : List Flag := [.c16, .c8, .o16, .o8]

/-- The flags FLAGS_AUX_MUL and FLAGS_AUX_DIV supply (R33). -/
def auxMulDivFlags : List Flag := [.c32, .c16, .c8, .o32, .o16, .o8]

/-- The flags FLAGS_AUX_ROT (C32 set by the mode) and FLAGS_AUX_CPYB supply (R33). -/
def auxShiftFlags : List Flag := [.c16, .c8, .o32, .o16, .o8]

/-- The eleven flags, all but EI (R30). -/
def resultFlags : List Flag := [.z, .s8, .s16, .s32, .o8, .o16, .o32, .c8, .c16, .c32, .p]

/-! ## Writing a result and its flags -/

/-- R02_DEST_POLICY = write_wins (R36): the flags of `s` stand already, the result is written last, so with
destination R02 the result stays. DESIGN CHOICE of the spec, log entry 10. -/
def State.writeResult (s : State) (d : RegNum) (r : Word) : State := s.writeReg d r

/-- The effect of the loads and the logic instructions (R100, R120): Z, P, Sn from `r`, C16, C8, O16, O8
free, C32 and O32 kept, then `r` to Rdd. -/
def State.loadLogicResult (s : State) (d : RegNum) (operands : List Word) (r : Word) : State :=
  ((s.flagsResult r).drawFlags Config.flagsAuxLogic operands auxLogicFlags).writeResult d r

end Sys2Proof.Machine
end

