-- ==== Sys2Proof/Machine/Arithmetic.lean ====
section
/-! DEFINITION. ADDr, ADDd, MUL, DIV (spec/42_arithmetic.md). -/

namespace Sys2Proof.Machine

/-- ADDr's value: sum or difference, with the carry in modes `c+` and `c-` (R140). -/
def addrValue (mode : AddMode) (a b : Word) (c : Bool) : Word :=
  match mode with
  | .add => a + b
  | .sub => a - b
  | .cmp => a - b
  | .addc => a + b + bitWord c
  | .subc => a - b - bitWord c

/-- ADDr's carry and overflow flags (R140, R29). -/
def State.addrFlags (s : State) (mode : AddMode) (a b : Word) (c : Bool) : State :=
  match mode with
  | .add => s.flagsAdd a b false
  | .sub => s.flagsSub a b false
  | .cmp => s.flagsSub a b false
  | .addc => s.flagsAdd a b c
  | .subc => s.flagsSub a b c

/-- ADDr (R140); in compare mode no register is written (R141). -/
def execAddr (d n m : RegNum) (mode : AddMode) (s : State) : Host.Outcome State Fault Refusal :=
  let a := s.readReg n
  let b := s.readReg m
  let r := addrValue mode a b (s.flag .c32)
  let t := (s.addrFlags mode a b (s.flag .c32)).flagsResult r
  if mode = .cmp then .next t else .next (t.writeResult d r)

/-- ADDd (R143): an addition of the sign-extended value, flags included. -/
def execAddd (d n : RegNum) (value : BitVec 16) (s : State) : Host.Outcome State Fault Refusal :=
  let a := s.readReg n
  let b := addImmediate value
  .next (((s.flagsAdd a b false).flagsResult (a + b)).writeResult d (a + b))

/-- The low 32 bits of the exact product (R144). -/
def mulValue (mode : SignMode) (a b : Word) : Word :=
  match mode with
  | .signed => BitVec.ofInt 32 (a.toInt * b.toInt)
  | .unsigned => BitVec.ofNat 32 (a.toNat * b.toNat)

/-- MUL (R144). -/
def execMul (d n m : RegNum) (mode : SignMode) (s : State) : Host.Outcome State Fault Refusal :=
  let r := mulValue mode (s.readReg n) (s.readReg m)
  let operands := [s.readReg n, s.readReg m, mode.bits.setWidth 32]
  .next (((s.flagsResult r).drawFlags Config.flagsAuxMul operands auxMulDivFlags).writeResult d r)

/-- `divide(mode, a, b)` for `b != 0`: quotient and remainder; signed, the quotient is rounded toward zero
(R146). -/
def divide (mode : SignMode) (a b : Word) : Word × Word :=
  match mode with
  | .unsigned =>
    let q := a.toNat / b.toNat
    (BitVec.ofNat 32 q, BitVec.ofNat 32 (a.toNat - q * b.toNat))
  | .signed =>
    let q := a.toInt.tdiv b.toInt
    (BitVec.ofInt 32 q, BitVec.ofInt 32 (a.toInt - q * b.toInt))

/-- The value DIV stores (R145): in type normal the low 16 bits of the remainder above those of the quotient,
cut without any check (R146). -/
def divPart (part : DivType) (q rem : Word) : Word :=
  match part with
  | .normal => rem.extractLsb' 0 16 ++ q.extractLsb' 0 16
  | .rest => rem
  | .result => q

/-- The signed division whose quotient 2^31 is not representable (R147 b). -/
def divOverflows (mode : SignMode) (a b : Word) : Bool :=
  mode == .signed && a == 0x80000000 && b == 0xFFFFFFFF

/-- DIV (R145). A zero divisor and the signed overflow leave Rdd and the eleven flags any value, and change
nothing else (R147 a, b; log entry 9). -/
def execDiv (d n m : RegNum) (mode : SignMode) (part : DivType) (s : State) :
    Host.Outcome State Fault Refusal :=
  let a := s.readReg n
  let b := s.readReg m
  let operands := [a, b, mode.bits.setWidth 32, part.bits.setWidth 32]
  if b = 0 then
    .next ((s.drawFlags Config.divZeroFlags operands resultFlags).writeResult d
      (Config.divZeroResult s.draws operands))
  else if divOverflows mode a b then
    .next ((s.drawFlags Config.divOverflowFlags operands resultFlags).writeResult d
      (Config.divOverflowResult s.draws operands))
  else
    let r := divPart part (divide mode a b).1 (divide mode a b).2
    .next (((s.flagsResult r).drawFlags Config.flagsAuxDiv operands auxMulDivFlags).writeResult d r)

end Sys2Proof.Machine
end

