-- ==== Sys2Proof/Machine/BitJump.lean ====
section
/-! DEFINITION. CPYB, JMPd, JMPr, JB (spec/43_bit_and_jump.md). R00 holds the address of the next instruction
while these execute (spec/10_state.md R22). -/

namespace Sys2Proof.Machine

/-- CPYB's new destination value: bit `dbit` takes `b`, the others are cleared or kept (R160). -/
def copyBitValue (mode : CopyMode) (old : Word) (dbit : BitNum) (b : Bool) : Word :=
  match mode with
  | .clear => bitWord b <<< dbit.val
  | .keep => setBit old dbit.val b

/-- CPYB (R160), with C32 the bit read and Z, P, Sn from the new value (R161). -/
def execCpyb (d n : RegNum) (dbit : BitNum) (mode : CopyMode) (sbit : BitNum) (s : State) :
    Host.Outcome State Fault Refusal :=
  let b := (s.readReg n).getLsbD sbit.val
  let r := copyBitValue mode (s.readReg d) dbit b
  let operands := [s.readReg d, s.readReg n, BitVec.ofNat 32 dbit.val, mode.bits.setWidth 32, BitVec.ofNat 32 sbit.val]
  .next ((((s.flagsResult r).drawFlags Config.flagsAuxCpyb operands auxShiftFlags).setFlag .c32 b).writeResult d r)

/-- JMPd (R163). -/
def execJmpd (addr30 : BitVec 30) (s : State) : Host.Outcome State Fault Refusal :=
  .next (s.writeReg pcReg (absoluteTarget addr30))

/-- JMPr (R165); the two low bits are dropped by the write to R00 (R24). -/
def execJmpr (m : RegNum) (s : State) : Host.Outcome State Fault Refusal :=
  .next (s.writeReg pcReg (s.readReg m))

/-- JB's condition, from the bit test and the flags Z, S32, O32 as they stand (R164, R166 e). -/
def jumpCondition (s : State) (mode : JumpMode) (v : Bool) (bit : BitNum) (n : RegNum) : Bool :=
  let t := (s.readReg n).getLsbD bit.val == v
  match mode with
  | .bit => t
  | .plusZ => t || s.flag .z
  | .minusZ => t && !s.flag .z
  | .g => t && (s.flag .s32 == s.flag .o32)
  | .le => t || (s.flag .s32 != s.flag .o32)

/-- JB (R164): relative to the instruction after it, modulo 2^32. -/
def execJb (mode : JumpMode) (v : Bool) (bit : BitNum) (n : RegNum) (addr : BitVec 14) (s : State) :
    Host.Outcome State Fault Refusal :=
  if jumpCondition s mode v bit n then .next (s.writeReg pcReg (s.readReg pcReg + jumpOffset addr))
  else .next s

end Sys2Proof.Machine
end

