-- ==== Sys2Proof/Machine/LoadStore.lean ====
section
/-! DEFINITION. LOADd, LOADr, LOADm, STORE (spec/40_load_store.md). In every meaning R00 has already advanced
to the next instruction (spec/10_state.md R22), and all operands are read before any write
(spec/00_scope.md R10). -/

namespace Sys2Proof.Machine

/-- LOADd (R101). The free flags may depend on the 16-bit value, the old Rdd and the mode (log entry 8). -/
def execLoadd (d : RegNum) (imm : BitVec 16) (mode : ImmMode) (s : State) : Host.Outcome State Fault Refusal :=
  .next (s.loadLogicResult d [imm.setWidth 32, s.readReg d, mode.bits.setWidth 32]
    (loadImmediate mode imm (s.readReg d)))

/-- LOADr (R102). The free flags may depend on Rnn and the mode (log entry 8). -/
def execLoadr (d n : RegNum) (mode : LoadMode) (s : State) : Host.Outcome State Fault Refusal :=
  .next (s.loadLogicResult d [s.readReg n, mode.bits.setWidth 32] (extendRegister mode (s.readReg n)))

/-- LOADm (R103); "LOADm is not allowed on R00" is checked first. The free flags may depend on the address, the value
and the mode (log entry 8). -/
def execLoadm (d m : RegNum) (mode : LoadMode) (s : State) : Host.Outcome State Fault Refusal :=
  let a := s.readReg m
  if d = pcReg then .refused .loadmIntoR00
  else if s.accessOk a (loadBytes mode) then
    let r := loadMemory mode s.mem a
    .next (s.loadLogicResult d [a, r, mode.bits.setWidth 32] r)
  else .fault (.noMemory a)

/-- STORE (R104): Rnn's low bits to the address in Rmm; no register, no flag. -/
def execStore (n m : RegNum) (mode : StoreMode) (s : State) : Host.Outcome State Fault Refusal :=
  let a := s.readReg m
  if s.accessOk a (storeBytes mode) then .next (s.withMem (storeMemory mode s.mem a (s.readReg n)))
  else .fault (.noMemory a)

end Sys2Proof.Machine
end

