-- ==== Sys2Proof/Machine/LogicRotate.lean ====
section
/-! DEFINITION. AND, OR, XOR, ROT (spec/41_logic_rotate.md). -/

namespace Sys2Proof.Machine

/-- AND (R120). -/
def execAnd (d n m : RegNum) (s : State) : Host.Outcome State Fault Refusal :=
  .next (s.loadLogicResult d [s.readReg n, s.readReg m] (s.readReg n &&& s.readReg m))

/-- OR (R121). -/
def execOr (d n m : RegNum) (s : State) : Host.Outcome State Fault Refusal :=
  .next (s.loadLogicResult d [s.readReg n, s.readReg m] (s.readReg n ||| s.readReg m))

/-- XOR (R122). -/
def execXor (d n m : RegNum) (s : State) : Host.Outcome State Fault Refusal :=
  .next (s.loadLogicResult d [s.readReg n, s.readReg m] (s.readReg n ^^^ s.readReg m))

/-- The input bit of one step (R124): `o` the output bit of the step, `c` the carry, `v` the value being
shifted. -/
def rotInput (mode : RotMode) (o c : Bool) (v : Word) : Bool :=
  match mode with
  | .rot => o
  | .zero => false
  | .one => true
  | .carry => c
  | .sign => v.getLsbD 31

/-- The bit that leaves in one step: bit 31 going left, bit 0 going right (R123). -/
def rotOutput (dir : RotDir) (v : Word) : Bool :=
  match dir with
  | .left => v.getLsbD 31
  | .right => v.getLsbD 0

/-- The value after one step with input bit `i` (R123). -/
def rotShift (dir : RotDir) (i : Bool) (v : Word) : Word :=
  match dir with
  | .left => v.extractLsb' 0 31 ++ BitVec.ofBool i
  | .right => BitVec.ofBool i ++ v.extractLsb' 1 31

/-- The loop of R123: the value and the last output bit after `k` steps. In mode carry each step after the
first takes the output bit of the step before (ROT_MULTISTEP = iterate, R127 a; log entry 12). -/
def rotLoop (dir : RotDir) (mode : RotMode) : Nat → Word → Bool → Option Bool → Word × Option Bool
  | 0, v, _, out => (v, out)
  | k + 1, v, c, _ =>
    let o := rotOutput dir v
    rotLoop dir mode k (rotShift dir (rotInput mode o c v) v) o (some o)

/-- C32 after a ROT (R125, R126): free in mode rot; otherwise the last output bit, or unchanged when no bit
was shifted out (R127 c). -/
def State.rotCarry (s : State) (operands : List Word) (mode : RotMode) (out : Option Bool) : State :=
  match mode with
  | .rot => s.drawFlags Config.flagsAuxRot operands (.c32 :: auxShiftFlags)
  | _ =>
    match out with
    | some o => (s.drawFlags Config.flagsAuxRot operands auxShiftFlags).setFlag .c32 o
    | none => s.drawFlags Config.flagsAuxRot operands auxShiftFlags

/-- ROT (R123 to R127). -/
def execRot (d n : RegNum) (step : Fin 32) (dir : RotDir) (mode : RotMode) (s : State) :
    Host.Outcome State Fault Refusal :=
  if mode = .sign ∧ dir = .left then .refused .rotSignLeft
  else
    let r := rotLoop dir mode step.val (s.readReg n) (s.flag .c32) none
    let operands := [s.readReg n, BitVec.ofNat 32 step.val, dir.bits.setWidth 32, mode.bits.setWidth 32,
      bitWord (s.flag .c32)]
    .next (((s.flagsResult r.1).rotCarry operands mode r.2).writeResult d r.1)

end Sys2Proof.Machine
end

