-- ==== Sys2Proof/Machine/StackCall.lean ====
section
/-! DEFINITION. PUSH, POP, CALL, CALLr, RET, NOP (spec/44_stack_call_nop.md). None touches a flag, but POP with
destination R02. -/

namespace Sys2Proof.Machine

/-- PUSH (R180): Rnn is read before R01 changes, so `PUSH R01` stores the old R01. -/
def execPush (n : RegNum) (s : State) : Host.Outcome State Fault Refusal :=
  let a := s.readReg spReg
  if s.accessOk a 4 then .next (s.pushWord (s.readReg n)) else .fault (.noMemory a)

/-- POP (R181). -/
def execPop (d : RegNum) (s : State) : Host.Outcome State Fault Refusal :=
  if s.accessOk s.topAddress 4 then .next (s.popInto d) else .fault (.noMemory s.topAddress)

/-- CALL (R182): push the address of the next instruction, then jump. -/
def execCall (addr30 : BitVec 30) (s : State) : Host.Outcome State Fault Refusal :=
  let a := s.readReg spReg
  if s.accessOk a 4 then .next ((s.pushWord (s.readReg pcReg)).writeReg pcReg (absoluteTarget addr30))
  else .fault (.noMemory a)

/-- CALLr (R183): the target register is read before R01 changes, so `CALLr R01` jumps to the old R01. -/
def execCallr (m : RegNum) (s : State) : Host.Outcome State Fault Refusal :=
  let a := s.readReg spReg
  if s.accessOk a 4 then .next ((s.pushWord (s.readReg pcReg)).writeReg pcReg (s.readReg m))
  else .fault (.noMemory a)

/-- RET (R184): as `POP R00`. -/
def execRet (s : State) : Host.Outcome State Fault Refusal :=
  if s.accessOk s.topAddress 4 then .next (s.popInto pcReg) else .fault (.noMemory s.topAddress)

/-- NOP (R185): R00 has already advanced; nothing else happens. -/
def execNop (s : State) : Host.Outcome State Fault Refusal := .next s

end Sys2Proof.Machine
end

