-- ==== Sys2Proof/Machine/Dispatch.lean ====
section
/-! DEFINITION. One arm per natural instruction, each calling that instruction's meaning. The state given is the
one in which R00 has already advanced (spec/10_state.md R22). -/

namespace Sys2Proof.Machine

def exec (i : Instr) (s : State) : Host.Outcome State Fault Refusal :=
  match i with
  | .loadd d imm mode => Sys2Proof.Machine.execLoadd d imm mode s
  | .loadr d n mode => Sys2Proof.Machine.execLoadr d n mode s
  | .loadm d m mode => Sys2Proof.Machine.execLoadm d m mode s
  | .store n m mode => Sys2Proof.Machine.execStore n m mode s
  | .and d n m => Sys2Proof.Machine.execAnd d n m s
  | .or d n m => Sys2Proof.Machine.execOr d n m s
  | .xor d n m => Sys2Proof.Machine.execXor d n m s
  | .rot d n step dir mode => Sys2Proof.Machine.execRot d n step dir mode s
  | .addr d n m mode => Sys2Proof.Machine.execAddr d n m mode s
  | .addd d n value => Sys2Proof.Machine.execAddd d n value s
  | .mul d n m mode => Sys2Proof.Machine.execMul d n m mode s
  | .div d n m mode part => Sys2Proof.Machine.execDiv d n m mode part s
  | .cpyb d n dbit mode sbit => Sys2Proof.Machine.execCpyb d n dbit mode sbit s
  | .jmpd addr30 => Sys2Proof.Machine.execJmpd addr30 s
  | .jmpr m => Sys2Proof.Machine.execJmpr m s
  | .jb mode v bit n addr => Sys2Proof.Machine.execJb mode v bit n addr s
  | .push n => Sys2Proof.Machine.execPush n s
  | .pop d => Sys2Proof.Machine.execPop d s
  | .call addr30 => Sys2Proof.Machine.execCall addr30 s
  | .callr m => Sys2Proof.Machine.execCallr m s
  | .ret => Sys2Proof.Machine.execRet s
  | .nop => Sys2Proof.Machine.execNop s

end Sys2Proof.Machine
end

