-- ==== Sys2Proof/Machine/Step.lean ====
section
/-! DEFINITION. One step of the processor (spec/10_state.md R22): fetch 4 bytes at R00, advance R00, decode,
perform the instruction. -/

namespace Sys2Proof.Machine

/-- R22, with the loading pipeline of R294 around it. -/
def step (s : State) : Host.Outcome State Fault Refusal :=
  if s.accessOk s.pc 4 then
    match decodeWord s.fetchWord with
    | .ok i => settle s.mem (exec i s.advance)
    | .error e => .refused (.noInstruction e)
  else .fault (.noMemory s.pc)

/-- `s` with the instruction whose bits are `w` (numbered as spec/opcode_table.json numbers them, bits at and
above `nbits` zero) stored big-endian at R00, where `step` fetches, and no old bytes left in the pipeline. Where
MEMMAP lacks one of the 4 bytes they are added to it. -/
def State.withFetchWord (s : State) (nbits w : Nat) : State :=
  { s with
    mem := s.mem.write32 s.pc (BitVec.ofNat 32 (w % 2 ^ nbits))
    map := if s.accessOk s.pc 4 then s.map else (span s.pc 4).map (fun a => ⟨a, 1⟩) ++ s.map
    stale := none }

end Sys2Proof.Machine
end

