-- ==== Sys2Proof/Machine/Assembler.lean ====
section
/-! DEFINITION. The assembler layer: the natural syntax with its defaults (spec/30_encoding.md R87) and the
user-friendly instruction set of chapter III (spec/45_aliases.md R200 to R255). A line stands for one natural
instruction; it adds no hardware behaviour (spec/00_scope.md R2). Operands stand in the order the assembler
writes them. -/

namespace Sys2Proof

/-- The casts of LOADm and LOADr (R204, R205). -/
inductive LoadCast where
  | none | uchar | char | uword | word
deriving DecidableEq, Repr

/-- The casts of STORE (R206). -/
inductive StoreCast where
  | none | char | word
deriving DecidableEq, Repr

/-- The natural mode a cast stands for (R204, R205). -/
def LoadCast.mode : LoadCast → LoadMode
  | .none => .w32 | .uchar => .u8 | .char => .s8 | .uword => .u16 | .word => .s16

/-- The natural mode a cast stands for (R206). -/
def StoreCast.mode : StoreCast → StoreMode
  | .none => .b32 | .char => .b8 | .word => .b16

/-- The conditional jumps of chapter III (R235 to R250). -/
inductive Condition where
  | z | nz | s | ns | c | nc | o | no | sg | sge | sl | sle | g | ge | l | le
deriving DecidableEq, Repr

/-- A line of assembly. The first group is the natural syntax (R87), `Option` marking a parameter that may be
left out; the second is chapter III. A `target` is a 32-bit byte address, an `offset` a 16-bit byte offset. DIV has
both its mode and its type or neither, as R145 and R87 show it; that the type alone cannot be left out is a DESIGN
CHOICE (log entry 36). -/
inductive AsmLine where
  | loadd (d : RegNum) (value : BitVec 16) (mode : Option ImmMode)
  | loadr (d n : RegNum) (mode : Option LoadMode)
  | loadm (d m : RegNum) (mode : Option LoadMode)
  | store (m n : RegNum) (mode : Option StoreMode)
  | and (d n m : RegNum)
  | or (d n m : RegNum)
  | xor (d n m : RegNum)
  | rot (d n : RegNum) (step : Fin 32) (dir : RotDir) (mode : RotMode)
  | addr (d n m : RegNum) (mode : Option AddMode)
  | addd (d n : RegNum) (value : BitVec 16)
  | mul (d n m : RegNum) (mode : Option SignMode)
  | div (d n m : RegNum) (modeAndType : Option (SignMode × DivType))
  | cpyb (d n : RegNum) (dbit sbit : BitNum) (mode : CopyMode)
  | jmpd (target : Word)
  | jmpr (m : RegNum)
  | jb (mode : Option JumpMode) (n : RegNum) (bit : BitNum) (v : Bool) (offset : BitVec 16)
  | push (n : RegNum)
  | pop (d : RegNum)
  | call (target : Word)
  | callr (m : RegNum)
  | ret
  | nop
  | loadds (d : RegNum) (value : BitVec 16)
  | loaddl (d : RegNum) (value : BitVec 16)
  | loaddh (d : RegNum) (value : BitVec 16)
  | loadmCast (d : RegNum) (cast : LoadCast) (m : RegNum)
  | loadrCast (d : RegNum) (cast : LoadCast) (n : RegNum)
  | storeCast (m : RegNum) (cast : StoreCast) (n : RegNum)
  | rol (d n : RegNum) (step : Fin 32)
  | ror (d n : RegNum) (step : Fin 32)
  | rzl (d n : RegNum) (step : Fin 32)
  | rzr (d n : RegNum) (step : Fin 32)
  | r1l (d n : RegNum) (step : Fin 32)
  | r1r (d n : RegNum) (step : Fin 32)
  | rcl (d n : RegNum)
  | rcr (d n : RegNum)
  | rsr (d n : RegNum) (step : Fin 32)
  | adcr (d n m : RegNum)
  | subr (d n m : RegNum)
  | sucr (d n m : RegNum)
  | cpmr (n m : RegNum)
  | cmpr (d n m : RegNum)
  | subd (d n : RegNum) (value : BitVec 16)
  | muls (d n m : RegNum)
  | divs (d n m : RegNum)
  | idiv (d n m : RegNum)
  | idivs (d n m : RegNum)
  | mod (d n m : RegNum)
  | mods (d n m : RegNum)
  | jcond (condition : Condition) (offset : BitVec 16)
deriving DecidableEq, Repr

/-- The JB a conditional jump stands for: mode, tested bit of R02, and the value it is compared with (R235 to
R250, R167). -/
def Condition.test : Condition → JumpMode × BitNum × Bool
  | .z => (.bit, 0, true)
  | .nz => (.bit, 0, false)
  | .s => (.bit, 3, true)
  | .ns => (.bit, 3, false)
  | .c => (.bit, 9, true)
  | .nc => (.bit, 9, false)
  | .o => (.bit, 6, true)
  | .no => (.bit, 6, false)
  | .sg => (.g, 0, false)
  | .sge => (.g, 11, false)
  | .sl => (.le, 11, true)
  | .sle => (.le, 0, true)
  | .g => (.minusZ, 9, false)
  | .ge => (.bit, 9, false)
  | .l => (.bit, 9, true)
  | .le => (.plusZ, 9, true)

/-- JB's address field for a byte offset; the two low bits are dropped (R166 a, `k = (offset >> 2) & 0x3FFF`). -/
def offsetField (offset : BitVec 16) : BitVec 14 := offset.extractLsb' 2 14

/-- The natural instruction a conditional jump stands for. -/
def Condition.instr (cond : Condition) (offset : BitVec 16) : Instr :=
  .jb cond.test.1 cond.test.2.2 cond.test.2.1 2 (offsetField offset)

/-- The natural instruction a line stands for; `none` where it cannot be encoded (R223: SUBd of -32768). -/
def AsmLine.expand : AsmLine → Option Instr
  | .loadd d v mode => some (.loadd d v (mode.getD .unsigned))
  | .loadr d n mode => some (.loadr d n (mode.getD .w32))
  | .loadm d m mode => some (.loadm d m (mode.getD .w32))
  | .store m n mode => some (.store n m (mode.getD .b32))
  | .and d n m => some (.and d n m)
  | .or d n m => some (.or d n m)
  | .xor d n m => some (.xor d n m)
  | .rot d n step dir mode => some (.rot d n step dir mode)
  | .addr d n m mode => some (.addr d n m (mode.getD .add))
  | .addd d n v => some (.addd d n v)
  | .mul d n m mode => some (.mul d n m (mode.getD .unsigned))
  | .div d n m mt => some (.div d n m (mt.getD (.unsigned, .normal)).1 (mt.getD (.unsigned, .normal)).2)
  | .cpyb d n dbit sbit mode => some (.cpyb d n dbit mode sbit)
  | .jmpd target => some (.jmpd (target.extractLsb' 2 30))
  | .jmpr m => some (.jmpr m)
  | .jb mode n bit v offset => some (.jb (mode.getD .bit) v bit n (offsetField offset))
  | .push n => some (.push n)
  | .pop d => some (.pop d)
  | .call target => some (.call (target.extractLsb' 2 30))
  | .callr m => some (.callr m)
  | .ret => some .ret
  | .nop => some .nop
  | .loadds d v => some (.loadd d v .signed)
  | .loaddl d v => some (.loadd d v .low)
  | .loaddh d v => some (.loadd d v .high)
  | .loadmCast d cast m => some (.loadm d m cast.mode)
  | .loadrCast d cast n => some (.loadr d n cast.mode)
  | .storeCast m cast n => some (.store n m cast.mode)
  | .rol d n step => some (.rot d n step .left .rot)
  | .ror d n step => some (.rot d n step .right .rot)
  | .rzl d n step => some (.rot d n step .left .zero)
  | .rzr d n step => some (.rot d n step .right .zero)
  | .r1l d n step => some (.rot d n step .left .one)
  | .r1r d n step => some (.rot d n step .right .one)
  | .rcl d n => some (.rot d n 1 .left .carry)
  | .rcr d n => some (.rot d n 1 .right .carry)
  | .rsr d n step => some (.rot d n step .right .sign)
  | .adcr d n m => some (.addr d n m .addc)
  | .subr d n m => some (.addr d n m .sub)
  | .sucr d n m => some (.addr d n m .subc)
  | .cpmr n m => some (.addr 2 n m .cmp)
  | .cmpr d n m => some (.addr d n m .cmp)
  | .subd d n v => if v = 0x8000#16 then none else some (.addd d n (-v))
  | .muls d n m => some (.mul d n m .signed)
  | .divs d n m => some (.div d n m .signed .normal)
  | .idiv d n m => some (.div d n m .unsigned .result)
  | .idivs d n m => some (.div d n m .signed .result)
  | .mod d n m => some (.div d n m .unsigned .rest)
  | .mods d n m => some (.div d n m .signed .rest)
  | .jcond cond offset => some (cond.instr offset)

/-- The instruction word a line is assembled to. -/
def AsmLine.assemble (line : AsmLine) : Option Word := line.expand.map encode

/-! ## The written line (R87; mnemonics R88, R255)

Registers in two decimal digits, `&` before a register that holds a memory address, operands separated by commas,
a JB offset with its sign; a parameter left out is not written. -/

/-- A register in two decimal digits: `R00` to `R31`. -/
def regText (r : RegNum) : String := (if r.val < 10 then "R0" else "R") ++ toString r.val

/-- A number in C hexadecimal. -/
def hexText (v : Nat) : String := "0x" ++ String.ofList (Nat.toDigits 16 v)

/-- A JB offset, in C hexadecimal with its sign. -/
def offsetText (offset : BitVec 16) : String :=
  (if offset.toInt < 0 then "-" else "+") ++ hexText offset.toInt.natAbs

/-- R87, LOADd. -/
def ImmMode.text : ImmMode → String
  | .low => "low" | .high => "high" | .signed => "signed" | .unsigned => "unsigned"

/-- R87, LOADr and LOADm. -/
def LoadMode.text : LoadMode → String
  | .u8 => "8u" | .s8 => "8s" | .u16 => "16u" | .s16 => "16s" | .w32 => "32"

/-- R87, STORE. -/
def StoreMode.text : StoreMode → String
  | .b8 => "8" | .b16 => "16" | .b32 => "32"

/-- R87, ROT's direction. -/
def RotDir.text : RotDir → String
  | .left => "left" | .right => "right"

/-- R87, ROT's mode. -/
def RotMode.text : RotMode → String
  | .rot => "rot" | .zero => "zero" | .one => "one" | .carry => "carry" | .sign => "sign"

/-- R87, ADDr. -/
def AddMode.text : AddMode → String
  | .add => "+" | .sub => "-" | .cmp => "c" | .addc => "c+" | .subc => "c-"

/-- R87, MUL and DIV. -/
def SignMode.text : SignMode → String
  | .signed => "signed" | .unsigned => "unsigned"

/-- R87, DIV's type. -/
def DivType.text : DivType → String
  | .normal => "normal" | .rest => "rest" | .result => "result"

/-- R87, CPYB. -/
def CopyMode.text : CopyMode → String
  | .clear => "0" | .keep => "="

/-- R87, JB. -/
def JumpMode.text : JumpMode → String
  | .bit => "bit" | .plusZ => "+Z" | .minusZ => "-Z" | .g => "G" | .le => "LE"

/-- The cast before a register, nothing for `none` (R204, R205). -/
def LoadCast.text : LoadCast → String
  | .none => "" | .uchar => "(uchar) " | .char => "(char) " | .uword => "(uword) " | .word => "(word) "

/-- The cast before a register, nothing for `none` (R206). -/
def StoreCast.text : StoreCast → String
  | .none => "" | .char => "(char) " | .word => "(word) "

/-- The mnemonic of a conditional jump (R235 to R250). -/
def Condition.mnemonic : Condition → String
  | .z => "JZ" | .nz => "JNZ" | .s => "JS" | .ns => "JNS" | .c => "JC" | .nc => "JNC" | .o => "JO" | .no => "JNO"
  | .sg => "JSG" | .sge => "JSGE" | .sl => "JSL" | .sle => "JSLE" | .g => "JG" | .ge => "JGE" | .l => "JL"
  | .le => "JLE"

/-- A mnemonic and its operands. -/
def lineText (mnemonic : String) (operands : List String) : String :=
  match operands with
  | [] => mnemonic
  | _ => mnemonic ++ " " ++ ", ".intercalate operands

/-- The operands of a line with three registers. -/
def threeRegs (d n m : RegNum) : List String := [regText d, regText n, regText m]

/-- The written line, operands and keywords in the order of the manual's "Syntax :" lines (R87, R200 to R254). The
spacing, one space after each comma, and the number forms are a DESIGN CHOICE (log entry 36). -/
def AsmLine.text : AsmLine → String
  | .loadd d v mode => lineText "LOADd" ([regText d, hexText v.toNat] ++ (mode.map ImmMode.text).toList)
  | .loadr d n mode => lineText "LOADr" ([regText d, regText n] ++ (mode.map LoadMode.text).toList)
  | .loadm d m mode => lineText "LOADm" ([regText d, "&" ++ regText m] ++ (mode.map LoadMode.text).toList)
  | .store m n mode => lineText "STORE" (["&" ++ regText m, regText n] ++ (mode.map StoreMode.text).toList)
  | .and d n m => lineText "AND" (threeRegs d n m)
  | .or d n m => lineText "OR" (threeRegs d n m)
  | .xor d n m => lineText "XOR" (threeRegs d n m)
  | .rot d n step dir mode =>
    lineText "ROT" [regText d, regText n, toString step.val, dir.text, mode.text]
  | .addr d n m mode => lineText "ADDr" (threeRegs d n m ++ (mode.map AddMode.text).toList)
  | .addd d n v => lineText "ADDd" [regText d, regText n, toString v.toInt]
  | .mul d n m mode => lineText "MUL" (threeRegs d n m ++ (mode.map SignMode.text).toList)
  | .div d n m none => lineText "DIV" (threeRegs d n m)
  | .div d n m (some mt) => lineText "DIV" (threeRegs d n m ++ [mt.1.text, mt.2.text])
  | .cpyb d n dbit sbit mode =>
    lineText "CPYB" [regText d, regText n, toString dbit.val, toString sbit.val, mode.text]
  | .jmpd target => lineText "JMPd" [hexText target.toNat]
  | .jmpr m => lineText "JMPr" [regText m]
  | .jb mode n bit v offset =>
    lineText "JB" ((mode.map JumpMode.text).toList ++
      [regText n, toString bit.val, toString v.toNat, offsetText offset])
  | .push n => lineText "PUSH" [regText n]
  | .pop d => lineText "POP" [regText d]
  | .call target => lineText "CALL" [hexText target.toNat]
  | .callr m => lineText "CALLr" [regText m]
  | .ret => lineText "RET" []
  | .nop => lineText "NOP" []
  | .loadds d v => lineText "LOADds" [regText d, hexText v.toNat]
  | .loaddl d v => lineText "LOADdl" [regText d, hexText v.toNat]
  | .loaddh d v => lineText "LOADdh" [regText d, hexText v.toNat]
  | .loadmCast d cast m => lineText "LOADm" [regText d, cast.text ++ "&" ++ regText m]
  | .loadrCast d cast n => lineText "LOADr" [regText d, cast.text ++ regText n]
  | .storeCast m cast n => lineText "STORE" ["&" ++ regText m, cast.text ++ regText n]
  | .rol d n step => lineText "ROL" [regText d, regText n, toString step.val]
  | .ror d n step => lineText "ROR" [regText d, regText n, toString step.val]
  | .rzl d n step => lineText "RZL" [regText d, regText n, toString step.val]
  | .rzr d n step => lineText "RZR" [regText d, regText n, toString step.val]
  | .r1l d n step => lineText "R1L" [regText d, regText n, toString step.val]
  | .r1r d n step => lineText "R1R" [regText d, regText n, toString step.val]
  | .rcl d n => lineText "RCL" [regText d, regText n]
  | .rcr d n => lineText "RCR" [regText d, regText n]
  | .rsr d n step => lineText "RSR" [regText d, regText n, toString step.val]
  | .adcr d n m => lineText "ADCr" (threeRegs d n m)
  | .subr d n m => lineText "SUBr" (threeRegs d n m)
  | .sucr d n m => lineText "SUCr" (threeRegs d n m)
  | .cpmr n m => lineText "CPMr" [regText n, regText m]
  | .cmpr d n m => lineText "CMPr" (threeRegs d n m)
  | .subd d n v => lineText "SUBd" [regText d, regText n, toString v.toInt]
  | .muls d n m => lineText "MULs" (threeRegs d n m)
  | .divs d n m => lineText "DIVs" (threeRegs d n m)
  | .idiv d n m => lineText "IDIV" (threeRegs d n m)
  | .idivs d n m => lineText "IDIVs" (threeRegs d n m)
  | .mod d n m => lineText "MOD" (threeRegs d n m)
  | .mods d n m => lineText "MODs" (threeRegs d n m)
  | .jcond cond offset => lineText cond.mnemonic [offsetText offset]

end Sys2Proof
end

