-- ==== Sys2Proof/Safety.lean ====
section
/-! DEFINITION. When a run is over (spec/70_reset_and_hazards.md R296), what a safe run is, and the conditions
the spec says always hold of the state. -/

namespace Sys2Proof.Machine

/-- END_OF_RUN (R296): how the host decides that a run is over; the machine itself never stops. -/
inductive EndOfRun where
  /-- The instruction about to execute is a JMPd to its own address, or a JB with offset -4 whose condition
  holds. -/
  | selfJump
  /-- R00 = `a` before a fetch. -/
  | address (a : Word)
  /-- After `n` steps. -/
  | steps (n : Nat)
deriving DecidableEq, Repr

/-- The instruction about to execute jumps to itself (R296, `self_jump`). Where MEMMAP lacks one of the 4 bytes at
R00 no instruction is about to execute (R58). -/
def State.selfJump (s : State) : Bool :=
  s.accessOk s.pc 4 &&
    match decodeWord s.fetchWord with
    | .ok (.jmpd addr30) => absoluteTarget addr30 == s.pc
    | .ok (.jb mode v bit n addr) => (jumpOffset addr == -4) && jumpCondition s.advance mode v bit n
    | _ => false

/-- The run is over in `s`, `k` steps having been made (R296). -/
def EndOfRun.reached (e : EndOfRun) (k : Nat) (s : State) : Bool :=
  match e with
  | .selfJump => s.selfJump
  | .address a => s.pc == a
  | .steps n => k == n

/-- At most `fuel` steps from `s`, `k` having been made, ending where `e` says so. -/
def runUntil (e : EndOfRun) : Nat → Nat → State → Host.Outcome State Fault Refusal
  | 0, _, s => .next s
  | fuel + 1, k, s =>
    if e.reached k s then .next s
    else
      match step s with
      | .next t => runUntil e fuel (k + 1) t
      | .fault f => .fault f
      | .refused r => .refused r

/-- A run of `k` steps from `s` that meets no fault and no refusal. -/
def SafeRun (k : Nat) (s : State) : Prop := ∃ t, Host.Core.run Sys2Proof.core k s = .next t

/-- R00 is a multiple of 4 (R24, R54). -/
def State.pcAligned (s : State) : Bool := s.pc &&& ~~~pcMask == 0

/-- Bits 30:11 of R02 are 0 (R30, R32). -/
def State.reservedZero (s : State) : Bool := s.regs[2] &&& ~~~flagsMask == 0

/-- Memory lists no byte that MEMMAP lacks (R58). -/
def State.memInMap (s : State) : Bool := s.mem.all fun c => s.map.has c.1

/-- What holds of every state the machine can be in: R00 a multiple of 4, bits 30:11 of R02 zero, memory in its
canonical form and within MEMMAP. -/
def State.Inv (s : State) : Prop :=
  s.pcAligned = true ∧ s.reservedZero = true ∧ s.mem.wf = true ∧ s.memInMap = true

end Sys2Proof.Machine
end

