-- ==== Sys2Proof/Certificates/Slice0/Obligations.lean ====
section
/-! DEFINITION. The statements for the provers, and the vocabulary they are written in. A statement about an
instruction's meaning is about `exec` on the state in which R00 has already advanced to the next instruction
(spec/10_state.md R22); `StepRunsDecodedInstruction` carries it to `step`. -/

namespace Sys2Proof.Claims

open Sys2Proof.Machine

/-! ## Vocabulary -/

/-- What Rdd holds after the value `r` is written to it: R00 a multiple of 4 (R24, the spec's decision D6, log entry
17), R02 zero in bits 30:11 (R32, D7, log entry 18), any other register `r`. -/
def held (d : RegNum) (r : Word) : Word :=
  if d = 0 then r &&& 0xFFFFFFFC else if d = 2 then r &&& 0x800007FF else r

/-- Every register not listed reads as before. R00, R01 and R02 are registers like the others here. -/
def RegsKept (changed : List RegNum) (s t : State) : Prop :=
  ∀ q : RegNum, q ∉ changed → t.readReg q = s.readReg q

/-- Every byte of memory outside the listed addresses reads as before. -/
def MemKeptOutside (stored : List Nat) (s t : State) : Prop :=
  ∀ a : Nat, a ∉ stored → t.mem.read a = s.mem.read a

/-- Every byte of memory reads as before. -/
def MemKept (s t : State) : Prop := MemKeptOutside [] s t

/-- The frame of an instruction that stores nothing and writes only the listed registers. -/
def Frame (changed : List RegNum) (s t : State) : Prop :=
  RegsKept changed s t ∧ MemKept s t ∧ t.stale = s.stale ∧ t.map = s.map

/-- `t` is `s` with `r` written to Rdd, and possibly flags in R02: nothing else differs. With Rdd = R02 the result is
what R02 keeps, which is the model's choice (R36, log entry 10). -/
def ResultWritten (s t : State) (d : RegNum) (r : Word) : Prop :=
  t.readReg d = held d r ∧ Frame [d, 2] s t

/-- Z, P, S8, S16, S32 are those of the result `r` (R35) and EI is as before. -/
def ResultFlags (s t : State) (r : Word) : Prop :=
  (t.flag .z = true ↔ r = 0) ∧
  (t.flag .p = true ↔ Even (Finset.univ.filter fun i : Fin 32 => r.getLsbD i.val = true).card) ∧
  t.flag .s8 = r.getLsbD 7 ∧ t.flag .s16 = r.getLsbD 15 ∧ t.flag .s32 = r.getLsbD 31 ∧
  t.flag .ei = s.flag .ei

/-- C32 and O32 are as before. -/
def WideCarryKept (s t : State) : Prop := t.flag .c32 = s.flag .c32 ∧ t.flag .o32 = s.flag .o32

/-- The carry and overflow of adding the low `n` bits of `a` and `b` and a carry (R29). -/
def AddFlagsAt (n : Nat) (a b : Word) (cin : Bool) (carry overflow : Bool) : Prop :=
  (carry = true ↔ 2 ^ n ≤ a.toNat % 2 ^ n + b.toNat % 2 ^ n + cin.toNat) ∧
  (overflow = true ↔
    ¬(-2 ^ (n - 1) ≤ (a.toNat : Int).bmod (2 ^ n) + (b.toNat : Int).bmod (2 ^ n) + cin.toNat ∧
      (a.toNat : Int).bmod (2 ^ n) + (b.toNat : Int).bmod (2 ^ n) + cin.toNat ≤ 2 ^ (n - 1) - 1))

/-- The borrow and overflow of subtracting the low `n` bits of `b` and a borrow from those of `a` (R29). -/
def SubFlagsAt (n : Nat) (a b : Word) (bin : Bool) (carry overflow : Bool) : Prop :=
  (carry = true ↔ a.toNat % 2 ^ n < b.toNat % 2 ^ n + bin.toNat) ∧
  (overflow = true ↔
    ¬(-2 ^ (n - 1) ≤ (a.toNat : Int).bmod (2 ^ n) - (b.toNat : Int).bmod (2 ^ n) - bin.toNat ∧
      (a.toNat : Int).bmod (2 ^ n) - (b.toNat : Int).bmod (2 ^ n) - bin.toNat ≤ 2 ^ (n - 1) - 1))

/-- All six carry and overflow flags are those of the addition (R29). -/
def AddFlags (t : State) (a b : Word) (cin : Bool) : Prop :=
  AddFlagsAt 8 a b cin (t.flag .c8) (t.flag .o8) ∧ AddFlagsAt 16 a b cin (t.flag .c16) (t.flag .o16) ∧
  AddFlagsAt 32 a b cin (t.flag .c32) (t.flag .o32)

/-- All six carry and overflow flags are those of the subtraction, the carry being the borrow (R29). -/
def SubFlags (t : State) (a b : Word) (bin : Bool) : Prop :=
  SubFlagsAt 8 a b bin (t.flag .c8) (t.flag .o8) ∧ SubFlagsAt 16 a b bin (t.flag .c16) (t.flag .o16) ∧
  SubFlagsAt 32 a b bin (t.flag .c32) (t.flag .o32)

/-- One bit as a 32-bit number. -/
def bitNumber (b : Bool) : Word := if b then 1 else 0

/-- The double word at an address, big-endian, addresses modulo 2^32 (R52). -/
def doubleWordAt (s : State) (a : Word) : Word :=
  s.mem.read a.toNat ++ s.mem.read (a + 1).toNat ++ s.mem.read (a + 2).toNat ++ s.mem.read (a + 3).toNat

/-- The bytes of memory from `a` on are the listed ones, addresses modulo 2^32 (R51). -/
def BytesAt (t : State) (a : Word) (bytes : List Byte) : Prop :=
  ∀ k (h : k < bytes.length), t.mem.read (a + BitVec.ofNat 32 k).toNat = bytes[k]

/-- A double word cut into bytes, most significant first (R51). -/
def bigEndian (v : Word) : List Byte :=
  [v.extractLsb' 24 8, v.extractLsb' 16 8, v.extractLsb' 8 8, v.extractLsb' 0 8]

/-- The bytes of memory from `a` on, `n` of them, read in `t` as in `s`. -/
def BytesKept (a : Word) (n : Nat) (s t : State) : Prop :=
  ∀ k, k < n → t.mem.read (a + BitVec.ofNat 32 k).toNat = s.mem.read (a + BitVec.ofNat 32 k).toNat

/-- The `n` bytes from `a` on exist: MEMMAP has each of their addresses, modulo 2^32 (R58, R51). -/
def Present (s : State) (a : Word) (n : Nat) : Prop :=
  ∀ k, k < n → ∃ r ∈ s.map, r.base ≤ (a + BitVec.ofNat 32 k).toNat ∧ (a + BitVec.ofNat 32 k).toNat < r.base + r.size

/-- The address and the number of bytes an instruction loads or stores, from the state it executes in (R56). -/
def accessed (s : State) : Instr → Option (Word × Nat)
  | .loadm _ m mode =>
    some (s.readReg m, match mode with
      | .u8 | .s8 => 1
      | .u16 | .s16 => 2
      | .w32 => 4)
  | .store _ m mode =>
    some (s.readReg m, match mode with
      | .b8 => 1
      | .b16 => 2
      | .b32 => 4)
  | .push _ | .call _ | .callr _ => some (s.readReg 1, 4)
  | .pop _ | .ret => some (s.readReg 1 - 4, 4)
  | _ => none

/-- The bytes an instruction loads or stores exist (R58). -/
def AccessPresent (s : State) (i : Instr) : Prop := ∀ a n, accessed s i = some (a, n) → Present s a n

/-- What ROT leaves in Rdd, in closed form (R124): a rotation, a logical shift filled with zeros or ones, an
arithmetic shift, or a rotation of the 33 bits C32 ++ v (R127 a). Mode sign to the left has no meaning. -/
def rotated (dir : RotDir) (mode : RotMode) (k : Nat) (v : Word) (c : Bool) : Word :=
  match mode, dir with
  | .rot, .left => v.rotateLeft k
  | .rot, .right => v.rotateRight k
  | .zero, .left => v <<< k
  | .zero, .right => v >>> k
  | .one, .left => ~~~(~~~v <<< k)
  | .one, .right => ~~~(~~~v >>> k)
  | .carry, .left => ((BitVec.ofBool c ++ v).rotateLeft k).setWidth 32
  | .carry, .right => ((BitVec.ofBool c ++ v).rotateRight k).setWidth 32
  | .sign, _ => v.sshiftRight k

/-- The last bit shifted out by `k` steps, `k` not 0: bit 32-k going left, bit k-1 going right (R124). -/
def lastOut (dir : RotDir) (k : Nat) (v : Word) : Bool :=
  match dir with
  | .left => v.getLsbD (32 - k)
  | .right => v.getLsbD (k - 1)

/-- ADDr's value in each mode (R140). -/
def addrResult (mode : AddMode) (a b : Word) (c : Bool) : Word :=
  match mode with
  | .add => a + b
  | .sub | .cmp => a - b
  | .addc => a + b + bitNumber c
  | .subc => a - b - bitNumber c

/-- ADDr's carry and overflow flags in each mode (R140). -/
def AddrFlags (mode : AddMode) (t : State) (a b : Word) (c : Bool) : Prop :=
  match mode with
  | .add => AddFlags t a b false
  | .sub | .cmp => SubFlags t a b false
  | .addc => AddFlags t a b c
  | .subc => SubFlags t a b c

/-- Quotient and remainder of a division by a number that is not 0, signed with truncation (R146). -/
def quotient (mode : SignMode) (a b : Word) : Word :=
  match mode with
  | .signed => a.sdiv b
  | .unsigned => a / b

/-- The remainder, with the sign of the dividend when signed (R146). -/
def remainder (mode : SignMode) (a b : Word) : Word :=
  match mode with
  | .signed => a.srem b
  | .unsigned => a % b

/-- DIV's value in each type (R145). -/
def divResult (part : DivType) (q rem : Word) : Word :=
  match part with
  | .normal => rem.extractLsb' 0 16 ++ q.extractLsb' 0 16
  | .rest => rem
  | .result => q

/-- The divisions the manual gives no result for: by zero, and -2^31 / -1 signed (R147). -/
def noQuotient (mode : SignMode) (a b : Word) : Prop :=
  b = 0 ∨ mode = .signed ∧ a = 0x80000000 ∧ b = 0xFFFFFFFF

/-- The condition of a JB in each mode (R164). -/
def JumpTaken (s : State) (mode : JumpMode) (v : Bool) (bit : BitNum) (n : RegNum) : Prop :=
  match mode with
  | .bit => (s.readReg n).getLsbD bit.val = v
  | .plusZ => (s.readReg n).getLsbD bit.val = v ∨ s.flag .z = true
  | .minusZ => (s.readReg n).getLsbD bit.val = v ∧ s.flag .z = false
  | .g => (s.readReg n).getLsbD bit.val = v ∧ s.flag .s32 = s.flag .o32
  | .le => (s.readReg n).getLsbD bit.val = v ∨ s.flag .s32 ≠ s.flag .o32

/-- What each conditional jump of chapter III means after a comparison of `a` with `b` (R167). -/
def ComparesTo (cond : Condition) (a b : Word) : Prop :=
  match cond with
  | .z => a = b
  | .nz => a ≠ b
  | .s => (a - b).toInt < 0
  | .ns => 0 ≤ (a - b).toInt
  | .c => a.toNat < b.toNat
  | .nc => b.toNat ≤ a.toNat
  | .o => (a - b).toInt ≠ a.toInt - b.toInt
  | .no => (a - b).toInt = a.toInt - b.toInt
  | .sg => b.toInt < a.toInt
  | .sge => b.toInt ≤ a.toInt
  | .sl => a.toInt < b.toInt
  | .sle => a.toInt ≤ b.toInt
  | .g => b.toNat < a.toNat
  | .ge => b.toNat ≤ a.toNat
  | .l => a.toNat < b.toNat
  | .le => a.toNat ≤ b.toNat

/-- The registers an instruction may write: its destination, R01 for the stack instructions, R00 for the jumps,
calls and RET, R02 for the flags (R27, R37, R56). ADDr in mode c writes R02 alone (R141). -/
def mayWrite : Instr → List RegNum
  | .loadd d _ _ | .loadr d _ _ | .loadm d _ _ | .and d _ _ | .or d _ _ | .xor d _ _ | .rot d _ _ _ _
  | .addd d _ _ | .mul d _ _ _ | .div d _ _ _ _ | .cpyb d _ _ _ _ => [d, 2]
  | .addr d _ _ mode => if mode = .cmp then [2] else [d, 2]
  | .store _ _ _ | .nop => []
  | .jmpd _ | .jmpr _ | .jb _ _ _ _ _ => [0]
  | .push _ => [1]
  | .pop d => [d, 1]
  | .call _ | .callr _ | .ret => [0, 1]

/-- The destination register an instruction names, where it names one and writes it (R71, R141). -/
def destination : Instr → Option RegNum
  | .loadd d _ _ | .loadr d _ _ | .loadm d _ _ | .and d _ _ | .or d _ _ | .xor d _ _ | .rot d _ _ _ _
  | .addd d _ _ | .mul d _ _ _ | .div d _ _ _ _ | .cpyb d _ _ _ _ | .pop d => some d
  | .addr d _ _ mode => if mode = .cmp then none else some d
  | _ => none

/-- The byte addresses an instruction stores to, from the state it executes in (R56): STORE's 1, 2 or 4 bytes at
the address in Rmm, the stack slot of PUSH, CALL and CALLr at R01; none for every other instruction. -/
def storedTo (s : State) : Instr → List Nat
  | .store _ m .b8 => span (s.readReg m) 1
  | .store _ m .b16 => span (s.readReg m) 2
  | .store _ m .b32 => span (s.readReg m) 4
  | .push _ | .call _ | .callr _ => span (s.readReg 1) 4
  | _ => []

/-- The instructions whose "Flags :" line says no impact, a POP into R02 apart (R37). -/
def leavesFlags : Instr → Bool
  | .store _ _ _ | .jmpd _ | .jmpr _ | .jb _ _ _ _ _ | .push _ | .call _ | .callr _ | .ret | .nop => true
  | .pop d => d != 2
  | _ => false

/-- The instructions that do not write C32 (R142): those of `leavesFlags`, and the loads and the logic
instructions unless R02 is their destination. -/
def leavesCarry : Instr → Bool
  | .loadd d _ _ | .loadr d _ _ | .loadm d _ _ | .and d _ _ | .or d _ _ | .xor d _ _ => d != 2
  | i => leavesFlags i

/-- The three operand slots of the standard layout as a number: Rdd in bits 23:19, Rnn in 18:14, Rmm in 13:9 (R71). -/
def slots (d n m : Fin 32) : Nat := d.val * 2 ^ 19 + n.val * 2 ^ 14 + m.val * 2 ^ 9

/-- The word of each instruction in each mode as a number, by the spec's formats and mode values (R73 to R77, R81) and
not by the model's encoder: filler zero. -/
def printedWord : Instr → Nat
  | .loadd d v .low => 0xFC000000 + slots d 0 0 + v.toNat * 2 ^ 3
  | .loadd d v .high => 0xFC000002 + slots d 0 0 + v.toNat * 2 ^ 3
  | .loadd d v .signed => 0xFC000004 + slots d 0 0 + v.toNat * 2 ^ 3
  | .loadd d v .unsigned => 0xFC000006 + slots d 0 0 + v.toNat * 2 ^ 3
  | .loadr d n .u8 => 0xFE000000 + slots d n 0
  | .loadr d n .s8 => 0xFE000100 + slots d n 0
  | .loadr d n .u16 => 0xFE000040 + slots d n 0
  | .loadr d n .s16 => 0xFE000140 + slots d n 0
  | .loadr d n .w32 => 0xFE000080 + slots d n 0
  | .loadm d m .u8 => 0xFD000000 + slots d 0 m
  | .loadm d m .s8 => 0xFD000100 + slots d 0 m
  | .loadm d m .u16 => 0xFD000040 + slots d 0 m
  | .loadm d m .s16 => 0xFD000140 + slots d 0 m
  | .loadm d m .w32 => 0xFD000080 + slots d 0 m
  | .store n m .b8 => 0xEC000000 + slots 0 n m
  | .store n m .b16 => 0xEC000080 + slots 0 n m
  | .store n m .b32 => 0xEC000100 + slots 0 n m
  | .and d n m => 0xF1000000 + slots d n m
  | .or d n m => 0xF2000000 + slots d n m
  | .xor d n m => 0xF3000000 + slots d n m
  | .rot d n step .left .rot => 0xF4000000 + slots d n step
  | .rot d n step .left .zero => 0xF4000040 + slots d n step
  | .rot d n step .left .one => 0xF4000060 + slots d n step
  | .rot d n step .left .carry => 0xF4000080 + slots d n step
  | .rot d n step .left .sign => 0xF40000A0 + slots d n step
  | .rot d n step .right .rot => 0xF4000100 + slots d n step
  | .rot d n step .right .zero => 0xF4000140 + slots d n step
  | .rot d n step .right .one => 0xF4000160 + slots d n step
  | .rot d n step .right .carry => 0xF4000180 + slots d n step
  | .rot d n step .right .sign => 0xF40001A0 + slots d n step
  | .addr d n m .add => 0x80000000 + slots d n m
  | .addr d n m .sub => 0x80000100 + slots d n m
  | .addr d n m .cmp => 0x80000180 + slots d n m
  | .addr d n m .addc => 0x80000040 + slots d n m
  | .addr d n m .subc => 0x80000140 + slots d n m
  | .addd d n v => 0xA0000000 + v.toNat / 2 ^ 14 * 2 ^ 24 + slots d n 0 + v.toNat % 2 ^ 14
  | .mul d n m .signed => 0xF8000000 + slots d n m
  | .mul d n m .unsigned => 0xF8000100 + slots d n m
  | .div d n m .signed .normal => 0xF9000060 + slots d n m
  | .div d n m .signed .rest => 0xF9000020 + slots d n m
  | .div d n m .signed .result => 0xF9000040 + slots d n m
  | .div d n m .unsigned .normal => 0xF9000160 + slots d n m
  | .div d n m .unsigned .rest => 0xF9000120 + slots d n m
  | .div d n m .unsigned .result => 0xF9000140 + slots d n m
  | .cpyb d n dbit .clear sbit => 0xE0000000 + slots d n dbit + sbit.val
  | .cpyb d n dbit .keep sbit => 0xE0000100 + slots d n dbit + sbit.val
  | .jmpd a => a.toNat
  | .call a => 0x40000000 + a.toNat
  | .jb .bit v bit n a => 0xC0000000 + v.toNat * 2 ^ 24 + slots bit n 0 + a.toNat
  | .jb .plusZ v bit n a => 0xC4000000 + v.toNat * 2 ^ 24 + slots bit n 0 + a.toNat
  | .jb .minusZ v bit n a => 0xC6000000 + v.toNat * 2 ^ 24 + slots bit n 0 + a.toNat
  | .jb .g v bit n a => 0xCC000000 + v.toNat * 2 ^ 24 + slots bit n 0 + a.toNat
  | .jb .le v bit n a => 0xCE000000 + v.toNat * 2 ^ 24 + slots bit n 0 + a.toNat
  | .jmpr r => 0xE8000000 + slots 0 0 r
  | .callr r => 0xE9000000 + slots 0 0 r
  | .push r => 0xE4000300 + slots 0 r 0
  | .pop r => 0xE5000280 + slots r 0 0
  | .ret => 0xE5000400
  | .nop => 0xFF000000

end Sys2Proof.Claims

open Sys2Proof Sys2Proof.Machine Sys2Proof.Claims

/-! ## Encoding (spec/30_encoding.md) -/

/-- R73 to R81: decoding the word the assembler writes gives back the instruction, whatever its operands. That
register numbers up to 31 are implemented (NREGS = 32, log entry 2) is the model's choice. -/
def Obligations.DecodeInvertsEncode : Prop :=
  ∀ i : Instr, decodeWord (encode i) = .ok i

/-- R86: every word that decodes to an instruction has that instruction's identifying bits, and differs from the word
the assembler writes for it in filler bits alone: no operand bit of a word is lost. That a word with other filler is
taken at all is the model's choice (FILLER_POLICY = ignore, log entry 1). -/
def Obligations.DecodedWordDiffersInFillerOnly : Prop :=
  ∀ (w : Word) (i : Instr), decodeWord w = .ok i →
    w &&& i.row.identMask = i.row.bits &&& i.row.identMask ∧
    w &&& ~~~i.row.filler = encode i &&& ~~~i.row.filler

/-- R82: the unassigned 8-bit codes, and the codes 0xE4 and 0xE5 without their constant ones, are refused, and no
other word is refused as such (the spec's decision D15, log entry 21). That filler bits, bits 28:26 of ADDd and bit 28
of JB among them, are not looked at is the model's choice (FILLER_POLICY = ignore, log entry 1). -/
def Obligations.UnassignedCodesRefused : Prop :=
  ∀ w : Word,
    (0x81 ≤ (w.extractLsb' 24 8).toNat ∧ (w.extractLsb' 24 8).toNat ≤ 0x9F ∨
      w.extractLsb' 24 8 ∈ [0xE1#8, 0xE2#8, 0xE3#8, 0xE6#8, 0xE7#8, 0xEA#8, 0xEB#8, 0xED#8, 0xEE#8, 0xEF#8,
        0xF0#8, 0xF5#8, 0xF6#8, 0xF7#8, 0xFA#8, 0xFB#8] ∨
      w.extractLsb' 24 8 = 0xE4#8 ∧ w.extractLsb' 8 2 ≠ 0b11#2 ∨
      w.extractLsb' 24 8 = 0xE5#8 ∧ ¬(w.getLsbD 9 = true ∧ w.getLsbD 7 = true) ∧
        ¬(w.extractLsb' 19 5 = 0#5 ∧ w.getLsbD 10 = true)) ↔
    decodeWord w = .error .unassignedCode

/-- R83: a listed instruction with an unlisted mode or type value is refused, and no other word is refused as such
(the spec's decision D15, log entry 21). That filler bits, bit 28 of JB among them, are not looked at is the model's
choice (FILLER_POLICY = ignore, log entry 1). -/
def Obligations.UnassignedModesRefused : Prop :=
  ∀ w : Word,
    (w.extractLsb' 24 8 ∈ [0xFE#8, 0xFD#8] ∧ w.extractLsb' 6 3 ∈ [0b011#3, 0b110#3, 0b111#3] ∨
      w.extractLsb' 24 8 = 0xEC#8 ∧ w.extractLsb' 7 2 = 0b11#2 ∨
      w.extractLsb' 24 8 = 0xF4#8 ∧ w.extractLsb' 5 3 ∈ [0b001#3, 0b110#3, 0b111#3] ∨
      w.extractLsb' 24 8 = 0x80#8 ∧ w.extractLsb' 6 3 ∈ [0b010#3, 0b011#3, 0b111#3] ∨
      w.extractLsb' 24 8 ∈ [0xF8#8, 0xF9#8] ∧ w.extractLsb' 7 2 ∈ [0b01#2, 0b11#2] ∨
      w.extractLsb' 24 8 = 0xF9#8 ∧ w.extractLsb' 5 2 = 0b00#2 ∨
      w.extractLsb' 24 8 = 0xE0#8 ∧ w.extractLsb' 7 2 ∈ [0b01#2, 0b11#2] ∨
      w.extractLsb' 29 3 = 0b110#3 ∧ w.extractLsb' 25 3 ∈ [0b001#3, 0b100#3, 0b101#3]) ↔
    decodeWord w = .error .unassignedMode

/-- R73 to R77: one word of each family, written out from the manual's printed encodings (spec/95_test_vectors.md
section 1.1). -/
def Obligations.PrintedEncodingsDecode : Prop :=
  decodeWord 0xFC100812 = .ok (.loadd 2 0x0102 .high) ∧
  decodeWord 0xEC00C400 = .ok (.store 3 2 .b8) ∧
  decodeWord 0xF410C440 = .ok (.rot 2 3 2 .left .zero) ∧
  decodeWord 0xA310FFFE = .ok (.addd 2 3 0xFFFE) ∧
  decodeWord 0xE010D106 = .ok (.cpyb 2 3 8 .keep 6) ∧
  decodeWord 0xC428BFA8 = .ok (.jb .plusZ false 5 2 0x3FA8) ∧
  decodeWord 0xE407C300 = .ok (.push 31) ∧
  decodeWord 0xE5000400 = .ok .ret

/-- R77: JMPd and CALL are the words with code 00 and 01, and the other 30 bits are bits 31:2 of the target. -/
def Obligations.JumpAndCallFormat : Prop :=
  (∀ w : Word, w.extractLsb' 30 2 = 0b00#2 → decodeWord w = .ok (.jmpd (w.extractLsb' 0 30))) ∧
  (∀ w : Word, w.extractLsb' 30 2 = 0b01#2 → decodeWord w = .ok (.call (w.extractLsb' 0 30))) ∧
  (∀ target : Word, AsmLine.assemble (.jmpd target) = some (target >>> 2)) ∧
  (∀ target : Word, AsmLine.assemble (.call target) = some (0x40000000 ||| target >>> 2)) ∧
  AsmLine.assemble (.jmpd 0x12345678) = some 0x048D159E ∧ AsmLine.assemble (.call 0x12345678) = some 0x448D159E

/-! ## The step (spec/10_state.md R22) -/

/-- R22: where the 4 bytes at R00 exist and the fetched word decodes to an instruction, the step is that instruction's
`exec` on the state with R00 advanced by 4, every other register and memory as before; after it only the loading
pipeline is noted (R294, log entry 28). With nothing in the pipeline the fetched word is the big-endian double word at
R00 (R53). That R00 reads as the next instruction's address throughout is the spec's decision D5 (log entry 16), its
modulus D4 (log entry 15), the big-endian fetch D2 (log entry 14). -/
def Obligations.StepRunsDecodedInstruction : Prop :=
  ∀ (s : State) (i : Instr), Present s s.pc 4 → decodeWord s.fetchWord = .ok i →
    step s = settle s.mem (exec i s.advance) ∧
    (∀ t, exec i s.advance = .next t → step s = .next (t.notePipeline s.mem)) ∧
    (∀ r, exec i s.advance = .refused r → step s = .refused r) ∧
    s.advance.readReg 0 = (s.readReg 0 + 4) &&& 0xFFFFFFFC ∧ Frame [0] s { s.advance with stale := s.stale } ∧
    (s.stale = none → s.fetchWord = doubleWordAt s (s.readReg 0))

/-- R22, R82, R83: a fetched word that does not decode stops the step by name. That it is refused is the spec's
decision D15 (log entry 21). -/
def Obligations.StepRefusesOtherWords : Prop :=
  ∀ (s : State) (e : DecodeError), Present s s.pc 4 → decodeWord s.fetchWord = .error e →
    step s = .refused (.noInstruction e)

/-- R62, R294 (tag U17): after a step, each byte of the next fetched word is a byte of memory as it stands or as it
stood before the step; where the step did not change the 4 bytes, the fetch sees memory. That a changed instruction
runs at all, with a free choice for each byte, is the model's choice (log entry 28). The big-endian fetch is the
spec's decision D2 (log entry 14), its addresses modulo 2^32 D4 (log entry 15). -/
def Obligations.FetchSeesOldOrNewBytes : Prop :=
  ∀ s t : State, step s = .next t →
    (∀ k, k < 4 →
      t.fetchWord.extractLsb' (8 * k) 8 = (doubleWordAt s t.pc).extractLsb' (8 * k) 8 ∨
      t.fetchWord.extractLsb' (8 * k) 8 = (doubleWordAt t t.pc).extractLsb' (8 * k) 8) ∧
    (doubleWordAt s t.pc = doubleWordAt t t.pc → t.fetchWord = doubleWordAt t t.pc)

/-! ## The whole machine -/

/-- R24, R32, R54, R58: whatever the instruction, a step keeps R00 a multiple of 4 and bits 30:11 of R02 zero (the
spec's decisions D6 and D7, log entries 17 and 18), and it keeps memory in its canonical form and within MEMMAP. That
a step over an instruction just overwritten answers at all (U17) is the model's choice (log entry 28). -/
def Obligations.StepKeepsInvariant : Prop :=
  ∀ s t : State, s.Inv → step s = .next t → t.Inv

/-- R41, R290, R58: the state after reset is in the invariant, and EI is 0 in it; so it is for any MEMMAP and any
initial contents within it. That `State.reset` lists no memory and has the whole address space, and that the loading
pipeline is empty, are the model's choices (log entries 4, 3 and 28). -/
def Obligations.ResetMeetsInvariant : Prop :=
  (State.reset.Inv ∧ State.reset.flag .ei = false ∧ State.reset.stale = none) ∧
  ∀ (map : MemMap) (contents : Memory), contents.wf = true → (∀ c ∈ contents, map.has c.1 = true) →
    (State.start map contents).Inv ∧ (State.start map contents).flag .ei = false ∧
    (State.start map contents).map = map ∧ (State.start map contents).mem = contents

/-- R10, R58, R270: where the bytes it accesses exist, `exec` answers a next state for every instruction but LOADm
into R00 (R103) and ROT in mode sign to the left (R127 b), which it refuses by name (the spec's decisions D20 and D17,
log entries 25 and 22). That the cases the spec leaves to parameters run too is the model's choice (log entries 9, 10,
11 and 12). So is that a STORE, PUSH, CALL or CALLr over the instruction executed next runs, which R62 and R294 give
as Unspecified (U17), treatment refuse (log entry 28). -/
def Obligations.CompletesUnlessForbidden : Prop :=
  ∀ (i : Instr) (s : State),
    (i.wellFormed = true → AccessPresent s i → ∃ t, exec i s = .next t) ∧
    (i.wellFormed = false → exec i s = .refused .loadmIntoR00 ∨ exec i s = .refused .rotSignLeft)

/-- R58, R270: the machine raises no exception; a step ends in a fault only where a byte MEMMAP lacks is among the 4
bytes fetched at R00 or among the bytes the fetched instruction loads or stores, and the fault names that access;
never where MEMMAP is the whole address space. That such an access is a fault, not a stuck state, is the model's
choice among the two R58 names (log entry 3). So are the bytes a misaligned access touches (log entry 11). Addresses
modulo 2^32 are the spec's decision D4 (log entry 15). -/
def Obligations.StepFaultsOnlyOutsideMap : Prop :=
  (∀ (s : State) (f : Fault), step s = .fault f →
    ∃ a n, f = .noMemory a ∧ ¬Present s a n ∧
      (a = s.pc ∧ n = 4 ∨
        Present s s.pc 4 ∧ ∃ i, decodeWord s.fetchWord = .ok i ∧ accessed s.advance i = some (a, n))) ∧
  (∀ (s : State) (f : Fault), s.map = wholeSpace → step s ≠ .fault f)

/-- R39: EI changes only through an instruction with destination R02. That ADDr in mode c names no destination, even
with R02 in its Rdd field, is the spec's decision D14 (R141, log entry 20). -/
def Obligations.InterruptEnableChangesOnlyThroughR02 : Prop :=
  ∀ (i : Instr) (s t : State), exec i s = .next t → destination i ≠ some 2 → t.flag .ei = s.flag .ei

/-- R21, R27, R37: no instruction changes a register but its destination, R02 by its flags, R01 by the stack and R00
by a jump. That ADDr in mode c writes R02's flags alone, whatever Rdd is, is the spec's decision D14 (R141, log entry
20). -/
def Obligations.OnlyNamedRegistersChange : Prop :=
  ∀ (i : Instr) (s t : State), exec i s = .next t → RegsKept (mayWrite i) s t

/-- R56: only STORE, PUSH, CALL and CALLr change memory, and only the bytes they address. That a misaligned store
touches the bytes it names is the model's choice (log entry 11). Addresses modulo 2^32 are the spec's decision D4 (log
entry 15). That a store over the instruction executed next runs (U17 in R62 and R294) is the model's choice (log entry
28). -/
def Obligations.OnlyAddressedBytesChange : Prop :=
  ∀ (i : Instr) (s t : State), exec i s = .next t → MemKeptOutside (storedTo s i) s t

/-- R37: STORE, the jumps, PUSH, CALL, CALLr, RET, NOP, and POP into any register but R02, leave R02. (POP R02 writes
it as its destination.) -/
def Obligations.NoImpactInstructionsKeepR02 : Prop :=
  ∀ (i : Instr) (s t : State), leavesFlags i = true → exec i s = .next t → t.readReg 2 = s.readReg 2

/-- R142, R37: the loads, the logic instructions and the instructions without flags do not write C32. That the loads
and the logic instructions leave it is the spec's decision D12 (log entry 13). -/
def Obligations.CarrySurvivesLoadsAndLogic : Prop :=
  ∀ (i : Instr) (s t : State), leavesCarry i = true → exec i s = .next t → t.flag .c32 = s.flag .c32

/-- R30, R31: where each flag stands in R02 as read, that bits 30:11 read 0, and that JZ, JS, JO, JC test bits 0, 3,
6, 9 and JSGE, JSL bit 11. The layout is the one the spec recovers from a flattened figure and the aliases (log entry
35, DEDUCED); that bits 30:11 read 0 whatever was written is the spec's decision D7 (log entry 18). -/
def Obligations.FlagsRegisterLayout : Prop :=
  ∀ s : State,
    (s.readReg 2).getLsbD 0 = s.flag .z ∧ (s.readReg 2).getLsbD 1 = s.flag .s8 ∧
    (s.readReg 2).getLsbD 2 = s.flag .s16 ∧ (s.readReg 2).getLsbD 3 = s.flag .s32 ∧
    (s.readReg 2).getLsbD 4 = s.flag .o8 ∧ (s.readReg 2).getLsbD 5 = s.flag .o16 ∧
    (s.readReg 2).getLsbD 6 = s.flag .o32 ∧ (s.readReg 2).getLsbD 7 = s.flag .c8 ∧
    (s.readReg 2).getLsbD 8 = s.flag .c16 ∧ (s.readReg 2).getLsbD 9 = s.flag .c32 ∧
    (s.readReg 2).getLsbD 10 = s.flag .p ∧ (s.readReg 2).getLsbD 31 = s.flag .ei ∧
    (∀ i, 11 ≤ i → i ≤ 30 → (s.readReg 2).getLsbD i = false) ∧
    (∀ offset : BitVec 16,
      AsmLine.expand (.jcond .z offset) = some (.jb .bit true 0 2 (offset.extractLsb' 2 14)) ∧
      AsmLine.expand (.jcond .s offset) = some (.jb .bit true 3 2 (offset.extractLsb' 2 14)) ∧
      AsmLine.expand (.jcond .o offset) = some (.jb .bit true 6 2 (offset.extractLsb' 2 14)) ∧
      AsmLine.expand (.jcond .c offset) = some (.jb .bit true 9 2 (offset.extractLsb' 2 14)) ∧
      AsmLine.expand (.jcond .sge offset) = some (.jb .g false 11 2 (offset.extractLsb' 2 14)) ∧
      AsmLine.expand (.jcond .sl offset) = some (.jb .le true 11 2 (offset.extractLsb' 2 14)))

/-! ## Loads and stores (spec/40_load_store.md) -/

/-- R101: LOADd, in each mode, with its flags and frame; it completes in every state. That R02 as destination keeps
the result is the model's choice (log entry 10). That C32 and O32 stay as before is the spec's decision D12 (R37, log
entry 13); Z, P and Sn from the whole 32-bit value are D9 (R35, log entry 19). The masks of R00 and R02 as
destinations are the spec's decisions D6 and D7 (log entries 17 and 18). -/
def Obligations.LoaddPlacesImmediate : Prop :=
  ∀ (d : RegNum) (imm : BitVec 16) (mode : ImmMode) (s : State),
    ∃ (t : State) (r : Word), exec (.loadd d imm mode) s = .next t ∧
      (match mode with
        | .low => r = (s.readReg d &&& 0xFFFF0000) ||| imm.setWidth 32
        | .high => r = (s.readReg d &&& 0x0000FFFF) ||| (imm.setWidth 32 <<< 16)
        | .signed => r.toInt = imm.toInt
        | .unsigned => r.toNat = imm.toNat) ∧
      ResultWritten s t d r ∧ (d ≠ 2 → ResultFlags s t r ∧ WideCarryKept s t)

/-- R102: LOADr, in each mode, with its flags and frame; it completes in every state. That R02 as destination keeps
the result is the model's choice (log entry 10). That C32 and O32 stay as before is the spec's decision D12 (R37, log
entry 13); Z, P and Sn from the whole 32-bit value are D9 (R35, log entry 19). The masks of R00 and R02 as
destinations are the spec's decisions D6 and D7 (log entries 17 and 18). -/
def Obligations.LoadrExtendsRegister : Prop :=
  ∀ (d n : RegNum) (mode : LoadMode) (s : State),
    ∃ (t : State) (r : Word), exec (.loadr d n mode) s = .next t ∧
      (match mode with
        | .u8 => r.toNat = (s.readReg n).toNat % 2 ^ 8
        | .s8 => r.toInt = ((s.readReg n).extractLsb' 0 8).toInt
        | .u16 => r.toNat = (s.readReg n).toNat % 2 ^ 16
        | .s16 => r.toInt = ((s.readReg n).extractLsb' 0 16).toInt
        | .w32 => r = s.readReg n) ∧
      ResultWritten s t d r ∧ (d ≠ 2 → ResultFlags s t r ∧ WideCarryKept s t)

/-- R103, R52: LOADm, in each mode, big-endian from the address in Rmm, aligned or not; it completes for every
destination but R00 where the bytes exist. That a misaligned access reads the bytes it names and that R02 as
destination keeps the result are the model's choices (log entries 11 and 10). Addresses modulo 2^32 and big-endian
reads are the spec's decisions D4 and D2 (log entries 15 and 14). That C32 and O32 stay as before is the spec's
decision D12 (R37, log entry 13); Z, P and Sn from the whole 32-bit value are D9 (R35, log entry 19). The masks of R00
and R02 as destinations are the spec's decisions D6 and D7 (log entries 17 and 18). -/
def Obligations.LoadmReadsBigEndian : Prop :=
  ∀ (d m : RegNum) (mode : LoadMode) (s : State), d ≠ 0 → AccessPresent s (.loadm d m mode) →
    ∃ (t : State) (r : Word), exec (.loadm d m mode) s = .next t ∧
      (match mode with
        | .u8 => r.toNat = (s.mem.read (s.readReg m).toNat).toNat
        | .s8 => r.toInt = (s.mem.read (s.readReg m).toNat).toInt
        | .u16 => r.toNat =
            (s.mem.read (s.readReg m).toNat).toNat * 2 ^ 8 + (s.mem.read (s.readReg m + 1).toNat).toNat
        | .s16 => r.toInt =
            (s.mem.read (s.readReg m).toNat).toInt * 2 ^ 8 + (s.mem.read (s.readReg m + 1).toNat).toNat
        | .w32 => r = doubleWordAt s (s.readReg m)) ∧
      ResultWritten s t d r ∧ (d ≠ 2 → ResultFlags s t r ∧ WideCarryKept s t)

/-- R103: "LOADm is not allowed on R00": with destination R00 it stops by name (the spec's decision D20, log entry
25). -/
def Obligations.LoadmIntoR00Refused : Prop :=
  ∀ (m : RegNum) (mode : LoadMode) (s : State), exec (.loadm 0 m mode) s = .refused .loadmIntoR00

/-- R104: STORE writes the low 8, 16 or 32 bits of Rnn big-endian at the address in Rmm, and nothing else: no other
byte, no register, no flag; its format, 32 being the default; mode 11 is unassigned. That a misaligned access touches
the bytes it names is the model's choice (log entry 11). Addresses modulo 2^32 are the spec's decision D4 (log entry
15). That mode 11 is refused is the spec's decision D15 (log entry 21), and that it is so whatever the filler bits the
model's choice (FILLER_POLICY = ignore, log entry 1). That it runs also where it stores over the instruction executed
next, Unspecified (U17, refuse) in R62 and R294, is the model's choice (log entry 28). -/
def Obligations.StoreWritesAddressedBytes : Prop :=
  (∀ (n m : RegNum) (mode : StoreMode) (s : State), AccessPresent s (.store n m mode) →
    ∃ t : State, exec (.store n m mode) s = .next t ∧
      (match mode with
        | .b8 => BytesAt t (s.readReg m) [(s.readReg n).extractLsb' 0 8] ∧
            MemKeptOutside (span (s.readReg m) 1) s t
        | .b16 => BytesAt t (s.readReg m) [(s.readReg n).extractLsb' 8 8, (s.readReg n).extractLsb' 0 8] ∧
            MemKeptOutside (span (s.readReg m) 2) s t
        | .b32 => BytesAt t (s.readReg m) (bigEndian (s.readReg n)) ∧
            MemKeptOutside (span (s.readReg m) 4) s t) ∧
      RegsKept [] s t ∧ t.stale = s.stale ∧ t.map = s.map) ∧
  (∀ n m : RegNum,
    AsmLine.assemble (.store m n (some .b8)) = some (.ofNat 32 (0xEC000000 + slots 0 n m)) ∧
    AsmLine.assemble (.store m n (some .b16)) = some (.ofNat 32 (0xEC000080 + slots 0 n m)) ∧
    AsmLine.assemble (.store m n (some .b32)) = some (.ofNat 32 (0xEC000100 + slots 0 n m))) ∧
  (∀ n m : RegNum, AsmLine.expand (.store m n none) = some (.store n m .b32)) ∧
  (∀ w : Word, w.extractLsb' 24 8 = 0xEC#8 → w.extractLsb' 7 2 = 0b11#2 → decodeWord w = .error .unassignedMode)

/-- R52, R60: a double word, a word or a byte loaded from the address it was stored at, with the same width, is read
back unchanged, in any later state in which the stored bytes stand and some register holds the address, into any
register but R00 (R02 keeps it under its mask). That a misaligned access touches the bytes it names and that R02 as
destination keeps the result are the model's choices (log entries 11 and 10). Addresses modulo 2^32 and big-endian
reads are the spec's decisions D4 and D2 (log entries 15 and 14). The masks of R00 and R02 as destinations are the
spec's decisions D6 and D7 (log entries 17 and 18). That a STORE over the instruction executed next runs (U17 in R62
and R294) is the model's choice (log entry 28). -/
def Obligations.LoadReadsBackStore : Prop :=
  ∀ (n m m' d : RegNum) (s t t' : State), d ≠ 0 → t'.map = t.map → t'.readReg m' = s.readReg m →
    (exec (.store n m .b32) s = .next t → BytesKept (s.readReg m) 4 t t' →
      ∃ u, exec (.loadm d m' .w32) t' = .next u ∧ u.readReg d = held d (s.readReg n)) ∧
    (exec (.store n m .b16) s = .next t → BytesKept (s.readReg m) 2 t t' →
      ∃ u, exec (.loadm d m' .u16) t' = .next u ∧ u.readReg d = held d (s.readReg n &&& 0x0000FFFF)) ∧
    (exec (.store n m .b8) s = .next t → BytesKept (s.readReg m) 1 t t' →
      ∃ u, exec (.loadm d m' .u8) t' = .next u ∧ u.readReg d = held d (s.readReg n &&& 0x000000FF))

/-! ## Logic and rotations (spec/41_logic_rotate.md) -/

/-- R120, R121, R122: AND, OR, XOR with their flags and frame; they complete in every state. That R02 as destination
keeps the result is the model's choice (log entry 10). That C32 and O32 stay as before is the spec's decision D12
(R37, log entry 13); Z, P and Sn from the whole 32-bit value are D9 (R35, log entry 19). The masks of R00 and R02 as
destinations are the spec's decisions D6 and D7 (log entries 17 and 18). -/
def Obligations.LogicComputesBitwise : Prop :=
  ∀ (d n m : RegNum) (s : State),
    (∃ (t : State) (r : Word), exec (.and d n m) s = .next t ∧
      (∀ j, r.getLsbD j = ((s.readReg n).getLsbD j && (s.readReg m).getLsbD j)) ∧
      ResultWritten s t d r ∧ (d ≠ 2 → ResultFlags s t r ∧ WideCarryKept s t)) ∧
    (∃ (t : State) (r : Word), exec (.or d n m) s = .next t ∧
      (∀ j, r.getLsbD j = ((s.readReg n).getLsbD j || (s.readReg m).getLsbD j)) ∧
      ResultWritten s t d r ∧ (d ≠ 2 → ResultFlags s t r ∧ WideCarryKept s t)) ∧
    (∃ (t : State) (r : Word), exec (.xor d n m) s = .next t ∧
      (∀ j, r.getLsbD j = ((s.readReg n).getLsbD j ^^ (s.readReg m).getLsbD j)) ∧
      ResultWritten s t d r ∧ (d ≠ 2 → ResultFlags s t r ∧ WideCarryKept s t))

/-- R123 to R127: the step-by-step ROT equals the shift or rotation of its mode, for every step count, and C32 is the
last bit shifted out (the old C32 when none was; free in mode rot, R126). That modes rot and carry run with a step
other than 1 (ROT_MULTISTEP = iterate, log entry 12), and that R02 as destination keeps the result (log entry 10), are
the model's choices. Z, P and Sn from the whole 32-bit value are the spec's decision D9 (R35, log entry 19). Step 0 is
the spec's decision D17 (log entry 22). The masks of R00 and R02 as destinations are the spec's decisions D6 and D7
(log entries 17 and 18). -/
def Obligations.RotShiftsByStep : Prop :=
  ∀ (d n : RegNum) (step : Fin 32) (dir : RotDir) (mode : RotMode) (s : State),
    ¬(mode = .sign ∧ dir = .left) →
    ∃ t : State, exec (.rot d n step dir mode) s = .next t ∧
      ResultWritten s t d (rotated dir mode step.val (s.readReg n) (s.flag .c32)) ∧
      (d ≠ 2 →
        ResultFlags s t (rotated dir mode step.val (s.readReg n) (s.flag .c32)) ∧
        (mode ≠ .rot → step = 0 → t.flag .c32 = s.flag .c32) ∧
        (mode ≠ .rot → step ≠ 0 → t.flag .c32 = lastOut dir step.val (s.readReg n)))

/-- R127 (b): ROT in mode sign to the left stops by name (the spec's decision D17, log entry 22). -/
def Obligations.RotSignLeftRefused : Prop :=
  ∀ (d n : RegNum) (step : Fin 32) (s : State), exec (.rot d n step .left .sign) s = .refused .rotSignLeft

/-! ## Arithmetic (spec/42_arithmetic.md) -/

/-- R140: ADDr in the four modes that write Rdd: value, all eleven flags, frame; it completes in every state. That R02
as destination keeps the result is the model's choice (log entry 10). The carries, borrows and overflows of 8, 16 and
32 bits are the spec's decision D10 (R29), Z, P and Sn from the whole value D9 (R35; log entry 19). The masks of R00
and R02 as destinations are the spec's decisions D6 and D7 (log entries 17 and 18). -/
def Obligations.AddrAddsAndSubtracts : Prop :=
  ∀ (d n m : RegNum) (mode : AddMode) (s : State), mode ≠ .cmp →
    ∃ t : State, exec (.addr d n m mode) s = .next t ∧
      ResultWritten s t d (addrResult mode (s.readReg n) (s.readReg m) (s.flag .c32)) ∧
      (d ≠ 2 →
        ResultFlags s t (addrResult mode (s.readReg n) (s.readReg m) (s.flag .c32)) ∧
        AddrFlags mode t (s.readReg n) (s.readReg m) (s.flag .c32))

/-- R141: ADDr in compare mode writes the flags of the difference and no register, whatever Rdd is (the spec's
decision D14, log entry 20). The carries, borrows and overflows of 8, 16 and 32 bits are the spec's decision D10
(R29), Z, P and Sn from the whole value D9 (R35; log entry 19). -/
def Obligations.CompareWritesFlagsOnly : Prop :=
  ∀ (d n m : RegNum) (s : State),
    ∃ t : State, exec (.addr d n m .cmp) s = .next t ∧ Frame [2] s t ∧
      ResultFlags s t (s.readReg n - s.readReg m) ∧ SubFlags t (s.readReg n) (s.readReg m) false

/-- R143: ADDd adds the sign-extended value, with the flags of an addition; it completes in every state. That R02 as
destination keeps the result is the model's choice (log entry 10). The carries, borrows and overflows of 8, 16 and 32
bits are the spec's decision D10 (R29), Z, P and Sn from the whole value D9 (R35), and that they are those of an
addition D33 (R143; log entry 19). The masks of R00 and R02 as destinations are the spec's decisions D6 and D7 (log
entries 17 and 18). -/
def Obligations.AdddAddsSignedImmediate : Prop :=
  ∀ (d n : RegNum) (value : BitVec 16) (s : State),
    ∃ t : State, exec (.addd d n value) s = .next t ∧
      ResultWritten s t d (s.readReg n + BitVec.ofInt 32 value.toInt) ∧
      (d ≠ 2 →
        ResultFlags s t (s.readReg n + BitVec.ofInt 32 value.toInt) ∧
        AddFlags t (s.readReg n) (BitVec.ofInt 32 value.toInt) false)

/-- R144: MUL leaves the low 32 bits of the product, the same value in both modes, with Z, P and Sn of it; it
completes in every state. That R02 as destination keeps the result is the model's choice (log entry 10). The low 32
bits are the spec's decision D18 (log entry 23). Z, P and Sn from the whole 32-bit value are the spec's decision D9
(R35, log entry 19). The masks of R00 and R02 as destinations are the spec's decisions D6 and D7 (log entries 17 and
18). -/
def Obligations.MulKeepsLowProduct : Prop :=
  ∀ (d n m : RegNum) (mode : SignMode) (s : State),
    ∃ t : State, exec (.mul d n m mode) s = .next t ∧
      ResultWritten s t d (s.readReg n * s.readReg m) ∧
      (d ≠ 2 → ResultFlags s t (s.readReg n * s.readReg m))

/-- R145, R146: DIV in every mode and type, where the division has a quotient: quotient truncated, remainder with the
dividend's sign (the spec's decision D19, log entry 24), Z, P and Sn of the stored value. That R02 as destination
keeps the result is the model's choice (log entry 10). Z, P and Sn from the whole 32-bit value are the spec's decision
D9 (R35, log entry 19). The masks of R00 and R02 as destinations are the spec's decisions D6 and D7 (log entries 17
and 18). -/
def Obligations.DivStoresQuotientAndRest : Prop :=
  ∀ (d n m : RegNum) (mode : SignMode) (part : DivType) (s : State),
    ¬noQuotient mode (s.readReg n) (s.readReg m) →
    ∃ t : State, exec (.div d n m mode part) s = .next t ∧
      ResultWritten s t d (divResult part (quotient mode (s.readReg n) (s.readReg m))
        (remainder mode (s.readReg n) (s.readReg m))) ∧
      (d ≠ 2 →
        ResultFlags s t (divResult part (quotient mode (s.readReg n) (s.readReg m))
          (remainder mode (s.readReg n) (s.readReg m))))

/-- R147: a division by zero and -2^31 / -1 complete too: some value in Rdd, any result flags, nothing else changed,
EI as before. That they run, with a free value, is the model's choice (log entry 9). So is that R02 as destination
keeps the value (log entry 10). The masks of R00 and R02 as destinations are the spec's decisions D6 and D7 (log
entries 17 and 18). -/
def Obligations.DivWithoutQuotientCompletes : Prop :=
  ∀ (d n m : RegNum) (mode : SignMode) (part : DivType) (s : State),
    noQuotient mode (s.readReg n) (s.readReg m) →
    ∃ (t : State) (r : Word), exec (.div d n m mode part) s = .next t ∧ ResultWritten s t d r ∧
      (d ≠ 2 → t.flag .ei = s.flag .ei)

/-- R142: ADDr `+` then ADDr `c+` add 64-bit numbers, the carry travelling in C32, with any instructions between them
that leave C32 and the low result: the second instruction may execute in any state that agrees with the first one's in
these two, and adds the high halves as that state holds them (the address of the next instruction for R00). Where that
state and the first instruction left the high operands alone, they are those of the start. Rests on the flags of the
spec's decision D10 (log entry 19). -/
def Obligations.CarryChainAddsDoubleWords : Prop :=
  ∀ (lo hi alo ahi blo bhi : RegNum) (s t t' : State),
    lo ≠ 0 → lo ≠ 2 → hi ≠ 0 → hi ≠ 2 → lo ≠ hi →
    exec (.addr lo alo blo .add) s = .next t →
    t'.flag .c32 = t.flag .c32 → t'.readReg lo = t.readReg lo →
    ∃ u, exec (.addr hi ahi bhi .addc) t' = .next u ∧
      u.readReg hi ++ u.readReg lo =
        (t'.readReg ahi ++ s.readReg alo) + (t'.readReg bhi ++ s.readReg blo) ∧
      (t'.readReg ahi = t.readReg ahi → t'.readReg bhi = t.readReg bhi → ahi ∉ [lo, 2] → bhi ∉ [lo, 2] →
        u.readReg hi ++ u.readReg lo =
          (s.readReg ahi ++ s.readReg alo) + (s.readReg bhi ++ s.readReg blo))

/-- R142: ADDr `-` then ADDr `c-` subtract 64-bit numbers, the borrow travelling in C32, with any instructions between
them that leave C32 and the low result: the second instruction may execute in any state that agrees with the first
one's in these two, and subtracts the high halves as that state holds them (the address of the next instruction for
R00). Where that state and the first instruction left the high operands alone, they are those of the start. Rests on
the flags of the spec's decision D10 (log entry 19). -/
def Obligations.BorrowChainSubtractsDoubleWords : Prop :=
  ∀ (lo hi alo ahi blo bhi : RegNum) (s t t' : State),
    lo ≠ 0 → lo ≠ 2 → hi ≠ 0 → hi ≠ 2 → lo ≠ hi →
    exec (.addr lo alo blo .sub) s = .next t →
    t'.flag .c32 = t.flag .c32 → t'.readReg lo = t.readReg lo →
    ∃ u, exec (.addr hi ahi bhi .subc) t' = .next u ∧
      u.readReg hi ++ u.readReg lo =
        (t'.readReg ahi ++ s.readReg alo) - (t'.readReg bhi ++ s.readReg blo) ∧
      (t'.readReg ahi = t.readReg ahi → t'.readReg bhi = t.readReg bhi → ahi ∉ [lo, 2] → bhi ∉ [lo, 2] →
        u.readReg hi ++ u.readReg lo =
          (s.readReg ahi ++ s.readReg alo) - (s.readReg bhi ++ s.readReg blo))

/-! ## Bit copy and jumps (spec/43_bit_and_jump.md) -/

/-- R160, R161: CPYB copies one bit, clearing or keeping the others; C32 is the bit read; it completes in every state.
That R02 as destination keeps the result is the model's choice (log entry 10). Z, P and Sn from the new value are the
spec's decisions D31 and D9 (log entries 30 and 19). The masks of R00 and R02 as destinations are the spec's decisions
D6 and D7 (log entries 17 and 18). -/
def Obligations.CpybCopiesOneBit : Prop :=
  ∀ (d n : RegNum) (dbit sbit : BitNum) (mode : CopyMode) (s : State),
    ∃ (t : State) (r : Word), exec (.cpyb d n dbit mode sbit) s = .next t ∧
      r.getLsbD dbit.val = (s.readReg n).getLsbD sbit.val ∧
      (∀ j, j < 32 → j ≠ dbit.val →
        r.getLsbD j = match mode with
          | .clear => false
          | .keep => (s.readReg d).getLsbD j) ∧
      ResultWritten s t d r ∧
      (d ≠ 2 → ResultFlags s t r ∧ t.flag .c32 = (s.readReg n).getLsbD sbit.val)

/-- R163: JMPd jumps to the absolute address whose bits 31:2 it carries, changing R00 alone; its format; an assembler
drops the two low bits; the all-zero word is JMPd 0. -/
def Obligations.JmpdJumpsAbsolute : Prop :=
  (∀ (addr30 : BitVec 30) (s : State),
    ∃ t : State, exec (.jmpd addr30) s = .next t ∧ (t.readReg 0).toNat = 4 * addr30.toNat ∧ Frame [0] s t) ∧
  (∀ addr30 : BitVec 30, encode (.jmpd addr30) = 0b00#2 ++ addr30) ∧
  (∀ target : Word, AsmLine.expand (.jmpd target) = some (.jmpd (target.extractLsb' 2 30))) ∧
  decodeWord 0 = .ok (.jmpd 0) ∧ AsmLine.assemble (.jmpd 0x12345678) = some 0x048D159E

/-- R165: JMPr jumps to the content of Rmm with the two low bits dropped, changing R00 alone; with Rmm = R00 it has no
effect (where R00 is the multiple of 4 it always is); its format. -/
def Obligations.JmprJumpsToRegister : Prop :=
  (∀ (m : RegNum) (s : State),
    ∃ t : State, exec (.jmpr m) s = .next t ∧ t.readReg 0 = s.readReg m &&& 0xFFFFFFFC ∧ Frame [0] s t) ∧
  (∀ s : State, s.pcAligned = true → exec (.jmpr 0) s = .next s) ∧
  (∀ m : RegNum, AsmLine.assemble (.jmpr m) = some (0xE8#8 ++ 0#10 ++ numBits m ++ 0#9)) ∧
  AsmLine.assemble (.jmpr 2) = some 0xE8000400

/-- R164: JB, in every mode, jumps relative to the next instruction by the signed offset times 4 when its condition
holds, and changes nothing when it does not; R00 a multiple of 4 (as it always is); its format; the other modes are
unassigned. That the low bits of an offset are dropped is R166 (a) (log entry 36); that the unlisted modes are refused
is the spec's decision D15 (log entry 21), and that bit 28 is not looked at the model's choice (FILLER_POLICY =
ignore, log entry 1). That modes +Z, -Z, G and LE read Z, S32 and O32 as stored, whatever register the bit test names,
is the spec's decision D34 (R166 e, log entry 29). The sum modulo 2^32 is D4 (log entry 15). -/
def Obligations.JbJumpsWhenConditionHolds : Prop :=
  (∀ (mode : JumpMode) (v : Bool) (bit : BitNum) (n : RegNum) (addr : BitVec 14) (s : State),
    s.pcAligned = true →
    (JumpTaken s mode v bit n →
      ∃ t : State, exec (.jb mode v bit n addr) s = .next t ∧
        t.readReg 0 = s.readReg 0 + BitVec.ofInt 32 (4 * addr.toInt) ∧ Frame [0] s t) ∧
    (¬JumpTaken s mode v bit n → exec (.jb mode v bit n addr) s = .next s)) ∧
  (∀ (v : Bool) (bit : BitNum) (n : RegNum) (offset : BitVec 16),
    AsmLine.assemble (.jb (some .bit) n bit v offset) =
      some (.ofNat 32 (0xC0000000 + v.toNat * 2 ^ 24 + slots bit n 0 + offset.toNat / 4)) ∧
    AsmLine.assemble (.jb (some .plusZ) n bit v offset) =
      some (.ofNat 32 (0xC4000000 + v.toNat * 2 ^ 24 + slots bit n 0 + offset.toNat / 4)) ∧
    AsmLine.assemble (.jb (some .minusZ) n bit v offset) =
      some (.ofNat 32 (0xC6000000 + v.toNat * 2 ^ 24 + slots bit n 0 + offset.toNat / 4)) ∧
    AsmLine.assemble (.jb (some .g) n bit v offset) =
      some (.ofNat 32 (0xCC000000 + v.toNat * 2 ^ 24 + slots bit n 0 + offset.toNat / 4)) ∧
    AsmLine.assemble (.jb (some .le) n bit v offset) =
      some (.ofNat 32 (0xCE000000 + v.toNat * 2 ^ 24 + slots bit n 0 + offset.toNat / 4))) ∧
  (∀ w : Word, w.extractLsb' 29 3 = 0b110#3 → w.extractLsb' 25 3 ∈ [0b001#3, 0b100#3, 0b101#3] →
    decodeWord w = .error .unassignedMode) ∧
  AsmLine.assemble (.jb (some .bit) 2 3 true 0x14) = some 0xC1188005 ∧
  AsmLine.assemble (.jb (some .plusZ) 2 5 false (-0x160)) = some 0xC428BFA8

/-- R167: after ADDr in mode `c`, or in mode `-` with another destination than R02, in any later state whose R02 reads
the same, each conditional jump of chapter III is taken exactly when Rnn compares to Rmm as its name says, and
otherwise changes nothing. The flags it reads are those of R29 (the spec's decision D10, log entry 19), S, O and Z
being S32, O32 and Z (D34, log entry 29); an offset's two low bits are dropped (R166 a, log entry 36). The jump's sum
modulo 2^32 is D4 (log entry 15). -/
def Obligations.ConditionalJumpsDecideComparison : Prop :=
  ∀ (cond : Condition) (offset : BitVec 16) (d n m : RegNum) (mode : AddMode) (s t t' : State),
    mode = .cmp ∨ mode = .sub ∧ d ≠ 2 →
    exec (.addr d n m mode) s = .next t → t'.readReg 2 = t.readReg 2 →
    (ComparesTo cond (s.readReg n) (s.readReg m) →
      ∃ u, exec (cond.instr offset) t' = .next u ∧
        u.readReg 0 = (t'.readReg 0 + (offset &&& 0xFFFC).signExtend 32) &&& 0xFFFFFFFC ∧ Frame [0] t' u) ∧
    (¬ComparesTo cond (s.readReg n) (s.readReg m) → exec (cond.instr offset) t' = .next t')

/-! ## Stack and calls (spec/44_stack_call_nop.md) -/

/-- R180: PUSH stores Rnn at the old R01, big-endian, then adds 4 to R01; no flag, no other register, no other byte;
its format. That a misaligned access touches the bytes it names is the model's choice (log entry 11). Addresses modulo
2^32 are the spec's decision D4 (log entry 15). That it runs also where it stores over the instruction executed next,
Unspecified (U17, refuse) in R62 and R294, is the model's choice (log entry 28). -/
def Obligations.PushStoresThenIncrements : Prop :=
  (∀ (n : RegNum) (s : State), AccessPresent s (.push n) →
    ∃ t : State, exec (.push n) s = .next t ∧
      BytesAt t (s.readReg 1) (bigEndian (s.readReg n)) ∧ MemKeptOutside (span (s.readReg 1) 4) s t ∧
      t.readReg 1 = s.readReg 1 + 4 ∧ RegsKept [1] s t ∧ t.stale = s.stale ∧ t.map = s.map) ∧
  (∀ n : RegNum, AsmLine.assemble (.push n) = some (0xE4000300 ||| (numBits n).setWidth 32 <<< 14)) ∧
  AsmLine.assemble (.push 31) = some 0xE407C300

/-- R181: POP subtracts 4 from R01 and loads the double word there into Rdd, setting no flag of its own; POP R00 is a
jump with the low bits dropped (the spec's decision D6, log entry 17), POP R01 ends with the loaded value, POP R02
writes the flags under the mask of R32 (the spec's decision D7, log entry 18). That a misaligned access touches the
bytes it names is the model's choice (log entry 11). Addresses modulo 2^32 and big-endian reads are the spec's
decisions D4 and D2 (log entries 15 and 14). -/
def Obligations.PopDecrementsThenLoads : Prop :=
  ∀ (d : RegNum) (s : State), AccessPresent s (.pop d) →
    ∃ t : State, exec (.pop d) s = .next t ∧
      t.readReg d = held d (doubleWordAt s (s.readReg 1 - 4)) ∧
      (d ≠ 1 → t.readReg 1 = s.readReg 1 - 4) ∧ Frame [d, 1] s t

/-- R182: CALL pushes the address of the next instruction and jumps to the absolute address it carries; no flag, no
other register, no other byte; its format. That a misaligned access touches the bytes it names is the model's choice
(log entry 11). Addresses modulo 2^32 are the spec's decision D4 (log entry 15). That it runs also where it stores
over the instruction executed next, Unspecified (U17, refuse) in R62 and R294, is the model's choice (log entry 28).
-/
def Obligations.CallPushesReturnAddress : Prop :=
  (∀ (addr30 : BitVec 30) (s : State), AccessPresent s (.call addr30) →
    ∃ t : State, exec (.call addr30) s = .next t ∧
      BytesAt t (s.readReg 1) (bigEndian (s.readReg 0)) ∧ MemKeptOutside (span (s.readReg 1) 4) s t ∧
      t.readReg 1 = s.readReg 1 + 4 ∧ (t.readReg 0).toNat = 4 * addr30.toNat ∧ RegsKept [0, 1] s t ∧
      t.stale = s.stale ∧ t.map = s.map) ∧
  (∀ addr30 : BitVec 30, encode (.call addr30) = 0b01#2 ++ addr30) ∧
  AsmLine.assemble (.call 0x12345678) = some 0x448D159E

/-- R183: CALLr pushes the address of the next instruction and jumps to the content Rmm had before (for Rmm = R01, the
spec's decision D21, log entry 26), the two low bits dropped. That a misaligned access touches the bytes it names is
the model's choice (log entry 11). Addresses modulo 2^32 are the spec's decision D4 (log entry 15). That it runs also
where it stores over the instruction executed next, Unspecified (U17, refuse) in R62 and R294, is the model's choice
(log entry 28). -/
def Obligations.CallrPushesReturnAddress : Prop :=
  ∀ (m : RegNum) (s : State), AccessPresent s (.callr m) →
    ∃ t : State, exec (.callr m) s = .next t ∧
      BytesAt t (s.readReg 1) (bigEndian (s.readReg 0)) ∧ MemKeptOutside (span (s.readReg 1) 4) s t ∧
      t.readReg 1 = s.readReg 1 + 4 ∧ t.readReg 0 = s.readReg m &&& 0xFFFFFFFC ∧ RegsKept [0, 1] s t ∧
      t.stale = s.stale ∧ t.map = s.map

/-- R184: RET subtracts 4 from R01 and jumps to the double word there, low bits dropped (the spec's decision D6, log
entry 17); it answers what POP R00 answers in every state; both words are valid. That a misaligned access touches the
bytes it names is the model's choice (log entry 11). Addresses modulo 2^32 and big-endian reads are the spec's
decisions D4 and D2 (log entries 15 and 14). -/
def Obligations.RetIsPopR00 : Prop :=
  (∀ s : State, AccessPresent s .ret →
    ∃ t : State, exec .ret s = .next t ∧ t.readReg 0 = doubleWordAt s (s.readReg 1 - 4) &&& 0xFFFFFFFC ∧
      t.readReg 1 = s.readReg 1 - 4 ∧ Frame [0, 1] s t) ∧
  (∀ s : State, exec (.pop 0) s = exec .ret s) ∧
  decodeWord 0xE5000400 = .ok .ret ∧ decodeWord 0xE5000280 = .ok (.pop 0)

/-- R185: NOP changes nothing: R00 has advanced already; its word. -/
def Obligations.NopDoesNothing : Prop :=
  (∀ s : State, exec .nop s = .next s) ∧ AsmLine.assemble .nop = some 0xFF000000 ∧
    decodeWord 0xFF000000 = .ok .nop

/-- R180, R181: a POP after a PUSH, in any later state with R01 and the stack slot as the PUSH left them, gives the
pushed value and R01 back and changes nothing else; where nothing but R00 changed between, every other register and
every byte outside the slot is as before the PUSH. PUSH R02 and POP R02 save and restore the flags. That a misaligned
access touches the bytes it names is the model's choice (log entry 11). Addresses modulo 2^32 and big-endian reads are
the spec's decisions D4 and D2 (log entries 15 and 14). The masks of R00 and R02 as destinations are the spec's
decisions D6 and D7 (log entries 17 and 18). That a PUSH over the instruction executed next runs (U17 in R62 and R294)
is the model's choice (log entry 28). -/
def Obligations.PopUndoesPush : Prop :=
  ∀ (n d : RegNum) (s t t' : State), exec (.push n) s = .next t →
    t'.map = t.map → t'.readReg 1 = t.readReg 1 → BytesKept (s.readReg 1) 4 t t' →
    ∃ u, exec (.pop d) t' = .next u ∧ u.readReg d = held d (s.readReg n) ∧
      (d ≠ 1 → u.readReg 1 = s.readReg 1) ∧ Frame [d, 1] t' u ∧
      (RegsKept [0] t t' → MemKept t t' →
        RegsKept [0, d] s u ∧ MemKeptOutside (span (s.readReg 1) 4) s u)

/-- R186: after a CALL or a CALLr, a RET in any state with R01 and the slot below it as the call left them resumes at
the instruction after the call, with R01 as before the call. That a misaligned access touches the bytes it names is
the model's choice (log entry 11). Addresses modulo 2^32 and big-endian reads are the spec's decisions D4 and D2 (log
entries 15 and 14). The low bits R00 drops are D6 (log entry 17). That a call whose store overlaps the instruction at
its target runs (U17 in R62 and R294) is the model's choice (log entry 28). -/
def Obligations.RetReturnsFromCall : Prop :=
  ∀ (i : Instr) (s t t' : State),
    ((∃ addr30, i = .call addr30) ∨ ∃ m, i = .callr m) → exec i s = .next t →
    t'.map = t.map → t'.readReg 1 = t.readReg 1 → BytesKept (s.readReg 1) 4 t t' →
    ∃ u, exec .ret t' = .next u ∧ u.readReg 0 = s.readReg 0 &&& 0xFFFFFFFC ∧ u.readReg 1 = s.readReg 1 ∧
      Frame [0, 1] t' u

/-! ## End of a run (spec/70_reset_and_hazards.md) -/

/-- R296: where `selfJump` says a run is over, with R00 a multiple of 4 and an empty pipeline, the step leads to a
state with the same registers and memory: the machine makes no progress any more. Where MEMMAP lacks a byte at R00 no
instruction is about to execute, and `selfJump` does not say so. That such a jump ends a run is the spec's decision
D28 (log entry 31). The JB's sum modulo 2^32 is D4 (log entry 15). -/
def Obligations.SelfJumpMakesNoProgress : Prop :=
  (∀ s : State, s.pcAligned = true → s.stale = none → s.selfJump = true →
    ∃ t, step s = .next t ∧ t = s) ∧
  (∀ s : State, ¬Present s s.pc 4 → s.selfJump = false)

/-! ## The address map (spec/20_memory.md R58) -/

/-- R58 (tag U16): a load, a store, a stack access or a fetch that touches a byte MEMMAP lacks stops with a fault of
its own, whatever the instruction would do. That it is a fault, not a stuck state, is the model's choice among the two
R58 names (log entry 3). So are the bytes a misaligned access touches (log entry 11). Addresses modulo 2^32 are the
spec's decision D4 (log entry 15). -/
def Obligations.AccessOutsideMapFaults : Prop :=
  (∀ (i : Instr) (s : State) (a : Word) (n : Nat), i.wellFormed = true → accessed s i = some (a, n) →
    ¬Present s a n → exec i s = .fault (.noMemory a)) ∧
  (∀ s : State, ¬Present s s.pc 4 → step s = .fault (.noMemory s.pc))

/-- R58: MEMMAP is a parameter: no step changes it. -/
def Obligations.MapNeverChanges : Prop :=
  ∀ s t : State, step s = .next t → t.map = s.map

/-! ## Words and lines in full (spec/30_encoding.md sections 2, 4 and 6) -/

/-- R73 to R77, R81: the word of every instruction, in every mode and with every operand, is the number the printed
formats and mode values give it, and that number decodes to the instruction. The constant ones of PUSH, POP and RET are
those the spec reads from flattened figures (log entry 35); that all 32 registers are implemented is log entry 2. -/
def Obligations.EveryWordIsThePrintedNumber : Prop :=
  ∀ i : Instr, (encode i).toNat = printedWord i ∧ decodeWord (BitVec.ofNat 32 (printedWord i)) = .ok i

/-- R87: the instruction a line of the natural syntax stands for, its operands in the manual's order (STORE the
address first, CPYB the destination bit before the source bit), and the default of a parameter left out; the
four-operand JB is mode bit (R234). Three of the manual's example lines, with its operands, keywords and numbers, and
the words it prints for them. That the texts have one space after each comma is the model's choice, since the manual's
spacing varies; so is that DIV has both mode and type written or neither (R145 shows no other form). That targets and
offsets lose their two low bits is log entry 36, as these two are. -/
def Obligations.NaturalSyntaxOrdersAndDefaults : Prop :=
  (∀ (d n m : RegNum) (v : BitVec 16) (bd bs : BitNum) (b : Bool) (imm : ImmMode) (load : LoadMode)
      (size : StoreMode) (sum : AddMode) (sign : SignMode) (part : DivType) (dir : RotDir) (fill : RotMode)
      (copy : CopyMode) (jump : JumpMode),
    AsmLine.expand (.loadd d v (some imm)) = some (.loadd d v imm) ∧
    AsmLine.expand (.loadd d v none) = some (.loadd d v .unsigned) ∧
    AsmLine.expand (.loadr d n (some load)) = some (.loadr d n load) ∧
    AsmLine.expand (.loadr d n none) = some (.loadr d n .w32) ∧
    AsmLine.expand (.loadm d m (some load)) = some (.loadm d m load) ∧
    AsmLine.expand (.loadm d m none) = some (.loadm d m .w32) ∧
    AsmLine.expand (.store m n (some size)) = some (.store n m size) ∧
    AsmLine.expand (.store m n none) = some (.store n m .b32) ∧
    AsmLine.expand (.and d n m) = some (.and d n m) ∧
    AsmLine.expand (.or d n m) = some (.or d n m) ∧
    AsmLine.expand (.xor d n m) = some (.xor d n m) ∧
    AsmLine.expand (.rot d n bd dir fill) = some (.rot d n bd dir fill) ∧
    AsmLine.expand (.addr d n m (some sum)) = some (.addr d n m sum) ∧
    AsmLine.expand (.addr d n m none) = some (.addr d n m .add) ∧
    AsmLine.expand (.addd d n v) = some (.addd d n v) ∧
    AsmLine.expand (.mul d n m (some sign)) = some (.mul d n m sign) ∧
    AsmLine.expand (.mul d n m none) = some (.mul d n m .unsigned) ∧
    AsmLine.expand (.div d n m (some (sign, part))) = some (.div d n m sign part) ∧
    AsmLine.expand (.div d n m none) = some (.div d n m .unsigned .normal) ∧
    AsmLine.expand (.cpyb d n bd bs copy) = some (.cpyb d n bd copy bs) ∧
    AsmLine.expand (.jmpr m) = some (.jmpr m) ∧
    AsmLine.expand (.jb (some jump) n bs b v) = some (.jb jump b bs n (v.extractLsb' 2 14)) ∧
    AsmLine.expand (.jb none n bs b v) = some (.jb .bit b bs n (v.extractLsb' 2 14)) ∧
    AsmLine.expand (.push n) = some (.push n) ∧ AsmLine.expand (.pop d) = some (.pop d) ∧
    AsmLine.expand (.callr m) = some (.callr m) ∧
    AsmLine.expand .ret = some .ret ∧ AsmLine.expand .nop = some .nop) ∧
  (∀ target : Word,
    AsmLine.expand (.jmpd target) = some (.jmpd (target.extractLsb' 2 30)) ∧
    AsmLine.expand (.call target) = some (.call (target.extractLsb' 2 30))) ∧
  AsmLine.text (.cpyb 2 3 8 6 .clear) = "CPYB R02, R03, 8, 6, 0" ∧
  AsmLine.assemble (.cpyb 2 3 8 6 .clear) = some 0xE010D006 ∧
  AsmLine.text (.store 3 4 none) = "STORE &R03, R04" ∧ AsmLine.assemble (.store 3 4 none) = some 0xEC010700 ∧
  AsmLine.text (.jb (some .plusZ) 2 5 false (-0x160)) = "JB +Z, R02, 5, 0, -0x160" ∧
  AsmLine.assemble (.jb (some .plusZ) 2 5 false (-0x160)) = some 0xC428BFA8
end

