-- ==== Sys2Proof/Laws/Arithmetic.lean ====
section
/-! SUPPORT. The product and the division in terms of the operations on bit vectors (spec/42_arithmetic.md R144,
R146). -/

namespace Sys2Proof.Machine

/-- The low 32 bits of the exact product do not depend on the signedness (R144). -/
theorem mulValue_eq (mode : SignMode) (a b : Word) : mulValue mode a b = a * b := by
  cases mode
  · simp [mulValue, BitVec.ofInt_mul]
  · simp [mulValue, BitVec.ofNat_mul]

/-- Unsigned division (R146). -/
theorem divide_unsigned (a b : Word) : divide .unsigned a b = (a / b, a % b) := by
  refine Prod.ext ?_ ?_ <;> apply BitVec.eq_of_toNat_eq
  · simp only [divide, BitVec.toNat_ofNat, BitVec.toNat_udiv]
    exact Nat.mod_eq_of_lt (Nat.lt_of_le_of_lt (Nat.div_le_self _ _) a.isLt)
  · simp only [divide, BitVec.toNat_ofNat, BitVec.toNat_umod]
    rw [Nat.mul_comm, ← Nat.mod_eq_sub_mul_div]
    exact Nat.mod_eq_of_lt (Nat.lt_of_le_of_lt (Nat.mod_le _ _) a.isLt)

/-- Signed division, the quotient truncated toward zero, the remainder with the dividend's sign (R146). -/
theorem divide_signed (a b : Word) : divide .signed a b = (a.sdiv b, a.srem b) := by
  refine Prod.ext ?_ ?_
  · simp only [divide]
    apply BitVec.eq_of_toInt_eq
    rw [BitVec.toInt_ofInt, BitVec.toInt_sdiv]
  · simp only [divide]
    apply BitVec.eq_of_toInt_eq
    rw [BitVec.toInt_ofInt, Int.mul_comm, ← Int.tmod_def, ← BitVec.toInt_srem]
    exact BitVec.toInt_bmod_cancel _

end Sys2Proof.Machine
end

