-- ==== Sys2Proof/Laws/State.lean ====
section
/-! SUPPORT. For every update of the state, what it does to each field; nothing later unfolds a record
update. -/

namespace Sys2Proof.Machine

variable (s : State)

/-! ## writeReg and writeResult -/

theorem writeReg_regs (r : RegNum) (v : Word) :
    (s.writeReg r v).regs = s.regs.set r.val (storedIn r v) := rfl
@[simp] theorem writeReg_mem (r : RegNum) (v : Word) : (s.writeReg r v).mem = s.mem := rfl
@[simp] theorem writeReg_stale (r : RegNum) (v : Word) : (s.writeReg r v).stale = s.stale := rfl
@[simp] theorem writeReg_map (r : RegNum) (v : Word) : (s.writeReg r v).map = s.map := rfl
@[simp] theorem writeReg_draws (r : RegNum) (v : Word) : (s.writeReg r v).draws = s.draws := rfl
@[simp] theorem writeResult_eq (d : RegNum) (r : Word) : s.writeResult d r = s.writeReg d r := rfl

/-! ## withMem -/

@[simp] theorem withMem_regs (m : Memory) : (s.withMem m).regs = s.regs := rfl
@[simp] theorem withMem_mem (m : Memory) : (s.withMem m).mem = m := rfl
@[simp] theorem withMem_stale (m : Memory) : (s.withMem m).stale = s.stale := rfl
@[simp] theorem withMem_map (m : Memory) : (s.withMem m).map = s.map := rfl
@[simp] theorem withMem_draws (m : Memory) : (s.withMem m).draws = s.draws := rfl
@[simp] theorem withMem_readReg (m : Memory) (q : RegNum) : (s.withMem m).readReg q = s.readReg q := rfl
@[simp] theorem withMem_flag (m : Memory) (f : Flag) : (s.withMem m).flag f = s.flag f := rfl
@[simp] theorem withMem_pc (m : Memory) : (s.withMem m).pc = s.pc := rfl

/-! ## setFlag -/

theorem setFlag_regs (f : Flag) (b : Bool) :
    (s.setFlag f b).regs = s.regs.set 2 (setBit s.regs[2] f.bit b) := rfl
@[simp] theorem setFlag_mem (f : Flag) (b : Bool) : (s.setFlag f b).mem = s.mem := rfl
@[simp] theorem setFlag_stale (f : Flag) (b : Bool) : (s.setFlag f b).stale = s.stale := rfl
@[simp] theorem setFlag_map (f : Flag) (b : Bool) : (s.setFlag f b).map = s.map := rfl
@[simp] theorem setFlag_draws (f : Flag) (b : Bool) : (s.setFlag f b).draws = s.draws := rfl

/-! ## drawn -/

@[simp] theorem drawn_regs : s.drawn.regs = s.regs := rfl
@[simp] theorem drawn_mem : s.drawn.mem = s.mem := rfl
@[simp] theorem drawn_stale : s.drawn.stale = s.stale := rfl
@[simp] theorem drawn_map : s.drawn.map = s.map := rfl
@[simp] theorem drawn_draws : s.drawn.draws = s.draws + 1 := rfl
@[simp] theorem drawn_readReg (q : RegNum) : s.drawn.readReg q = s.readReg q := rfl
@[simp] theorem drawn_flag (f : Flag) : s.drawn.flag f = s.flag f := rfl

/-! ## setFlags and drawFlags -/

@[simp] theorem setFlags_nil (v : BitVec 11) : s.setFlags v [] = s := rfl
@[simp] theorem setFlags_cons (v : BitVec 11) (f : Flag) (fs : List Flag) :
    s.setFlags v (f :: fs) = (s.setFlag f (v.getLsbD f.bit)).setFlags v fs := rfl
theorem drawFlags_eq (source : Nat → List Word → BitVec 11) (ops : List Word) (fs : List Flag) :
    s.drawFlags source ops fs = (s.setFlags (source s.draws ops) fs).drawn := rfl

/-! ## advance, notePipeline, withFetchWord -/

theorem advance_regs : s.advance.regs = (s.writeReg pcReg (s.pc + 4)).regs := rfl
@[simp] theorem advance_mem : s.advance.mem = s.mem := rfl
@[simp] theorem advance_map : s.advance.map = s.map := rfl
@[simp] theorem advance_stale : s.advance.stale = none := rfl
@[simp] theorem advance_readReg (q : RegNum) :
    s.advance.readReg q = (s.writeReg pcReg (s.pc + 4)).readReg q := rfl
@[simp] theorem notePipeline_regs (m : Memory) : (s.notePipeline m).regs = s.regs := rfl
@[simp] theorem notePipeline_mem (m : Memory) : (s.notePipeline m).mem = s.mem := rfl
@[simp] theorem notePipeline_map (m : Memory) : (s.notePipeline m).map = s.map := rfl
@[simp] theorem notePipeline_draws (m : Memory) : (s.notePipeline m).draws = s.draws := rfl
@[simp] theorem notePipeline_pc (m : Memory) : (s.notePipeline m).pc = s.pc := rfl
theorem notePipeline_stale (m : Memory) :
    (s.notePipeline m).stale =
      if m.read32 s.pc = s.mem.read32 s.pc then none else some (m.read32 s.pc) := rfl
@[simp] theorem withFetchWord_regs (k w : Nat) : (s.withFetchWord k w).regs = s.regs := rfl
@[simp] theorem withFetchWord_mem (k w : Nat) :
    (s.withFetchWord k w).mem = s.mem.write32 s.pc (BitVec.ofNat 32 (w % 2 ^ k)) := rfl
@[simp] theorem withFetchWord_stale (k w : Nat) : (s.withFetchWord k w).stale = none := rfl
@[simp] theorem withFetchWord_draws (k w : Nat) : (s.withFetchWord k w).draws = s.draws := rfl

/-! ## start and reset -/

@[simp] theorem start_mem (map : MemMap) (contents : Memory) : (State.start map contents).mem = contents := rfl
@[simp] theorem start_map (map : MemMap) (contents : Memory) : (State.start map contents).map = map := rfl
@[simp] theorem start_stale (map : MemMap) (contents : Memory) : (State.start map contents).stale = none := rfl
@[simp] theorem reset_map : State.reset.map = wholeSpace := rfl

/-! ## settle -/

@[simp] theorem settle_next (m : Memory) : settle m (.next s) = .next (s.notePipeline m) := rfl
@[simp] theorem settle_fault (m : Memory) (f : Fault) : settle m (.fault f) = .fault f := rfl
@[simp] theorem settle_refused (m : Memory) (r : Refusal) : settle m (.refused r) = .refused r := rfl

end Sys2Proof.Machine
end

