-- ==== Sys2Proof/Laws/Registers.lean ====
section
/-! SUPPORT. Reading a register or a flag after an update of registers or flags, and the invariants of R00 and
R02. -/

namespace Sys2Proof.Machine

/-! ## Bits of a word -/

theorem getLsbD_setBit (w : Word) {i j : Nat} (b : Bool) (hi : i < 32) (hj : j < 32) :
    (setBit w i b).getLsbD j = if j = i then b else w.getLsbD j := by
  unfold setBit
  by_cases h : j = i
  · subst h; cases b <;> simp [hj]
  · have hs : (1#32 <<< i).getLsbD j = false := by
      simp only [BitVec.getLsbD_shiftLeft, BitVec.getLsbD_one]
      rcases Nat.lt_or_ge j i with hlt | hge
      · simp [hlt]
      · simp [show j - i ≠ 0 by omega]
    cases b
    · simp only [Bool.false_eq_true, if_false, BitVec.getLsbD_and, BitVec.getLsbD_not, hs, h]
      simp [hj]
    · simp only [if_true, BitVec.getLsbD_or, hs, h, if_false, Bool.or_false]

theorem getLsbD_pcMask (i : Nat) (h : i < 32) : pcMask.getLsbD i = decide (2 ≤ i) := by
  have : ∀ j : Fin 32, pcMask.getLsbD j.val = decide (2 ≤ j.val) := by decide
  exact this ⟨i, h⟩

theorem getLsbD_flagsMask (i : Nat) (h : i < 32) : flagsMask.getLsbD i = decide (i ≤ 10 ∨ i = 31) := by
  have : ∀ j : Fin 32, flagsMask.getLsbD j.val = decide (j.val ≤ 10 ∨ j.val = 31) := by decide
  exact this ⟨i, h⟩

theorem Flag.bit_lt (f : Flag) : f.bit < 32 := by cases f <;> decide

theorem Flag.bit_mask (f : Flag) : flagsMask.getLsbD f.bit = true := by cases f <;> decide

theorem Flag.bit_inj {f g : Flag} (h : f.bit = g.bit) : f = g := by
  cases f <;> cases g <;> first | rfl | exact absurd h (by decide)

/-! ## Registers after a register write -/

/-- Everything a register write does to the register bank. -/
theorem regs_writeReg (s : State) (r : RegNum) (v : Word) (q : RegNum) :
    (s.writeReg r v).regs[q.val] = if q = r then storedIn r v else s.regs[q.val] := by
  rw [writeReg_regs, Vector.getElem_set]
  by_cases h : q = r
  · simp [h]
  · have : r.val ≠ q.val := fun e => h (Fin.ext e.symm)
    simp [h, this]

/-- R24, R32: what a register reads after it was written, and that the others read as before. -/
theorem readReg_writeReg (s : State) (r : RegNum) (v : Word) (q : RegNum) :
    (s.writeReg r v).readReg q = if q = r then storedIn r v else s.readReg q := by
  unfold State.readReg
  rw [regs_writeReg]
  by_cases h : q = r
  · subst h
    simp only [if_true]
    split
    · next h2 =>
      subst h2
      simp only [storedIn, show flagsReg ≠ pcReg by decide, if_false, if_true]
      rw [BitVec.and_assoc, BitVec.and_self]
    · rfl
  · simp [h]

@[simp] theorem readReg_writeReg_same (s : State) (r : RegNum) (v : Word) :
    (s.writeReg r v).readReg r = storedIn r v := by
  simp [readReg_writeReg]

theorem readReg_writeReg_other (s : State) (v : Word) {r q : RegNum} (h : q ≠ r) :
    (s.writeReg r v).readReg q = s.readReg q := by
  simp [readReg_writeReg, h]

theorem pc_eq_readReg (s : State) : s.pc = s.readReg pcReg := rfl

theorem storedIn_general {r : RegNum} (h0 : r ≠ pcReg) (h2 : r ≠ flagsReg) (v : Word) : storedIn r v = v := by
  simp [storedIn, h0, h2]

@[simp] theorem storedIn_pc (v : Word) : storedIn pcReg v = v &&& pcMask := rfl
@[simp] theorem storedIn_sp (v : Word) : storedIn spReg v = v := rfl
@[simp] theorem storedIn_flags (v : Word) : storedIn flagsReg v = v &&& flagsMask := rfl

/-! ## Flags -/

/-- A flag is its bit of the register R02 as read (R31). -/
theorem flag_eq_readReg (s : State) (f : Flag) : s.flag f = (s.readReg flagsReg).getLsbD f.bit := by
  simp only [State.flag, State.readReg, if_true, BitVec.getLsbD_and, f.bit_mask, Bool.and_true]
  rfl

/-- Everything a flag write does to the flags: that flag alone (R9). -/
theorem flag_setFlag (s : State) (f : Flag) (b : Bool) (g : Flag) :
    (s.setFlag f b).flag g = if g = f then b else s.flag g := by
  unfold State.flag
  simp only [setFlag_regs, Vector.getElem_set_self]
  rw [getLsbD_setBit _ _ f.bit_lt g.bit_lt]
  by_cases h : g = f
  · simp [h]
  · have : ¬g.bit = f.bit := fun e => h (Flag.bit_inj e)
    simp only [this, h, if_false]

/-- A flag write leaves every register but R02. -/
theorem regs_setFlag_other (s : State) (f : Flag) (b : Bool) {q : RegNum} (h : q ≠ flagsReg) :
    (s.setFlag f b).regs[q.val] = s.regs[q.val] := by
  rw [getElem_congr_coll (setFlag_regs s f b), Vector.getElem_set]
  have : ¬2 = q.val := fun e => h (Fin.ext e.symm)
  simp [this]

theorem readReg_setFlag_other (s : State) (f : Flag) (b : Bool) {q : RegNum} (h : q ≠ flagsReg) :
    (s.setFlag f b).readReg q = s.readReg q := by
  simp only [State.readReg, h, if_false]
  exact regs_setFlag_other s f b h

/-- A write to a register other than R02 leaves the flags. -/
theorem flag_writeReg_other (s : State) (v : Word) {r : RegNum} (h : r ≠ flagsReg) (f : Flag) :
    (s.writeReg r v).flag f = s.flag f := by
  rw [flag_eq_readReg, flag_eq_readReg, readReg_writeReg_other _ _ (Ne.symm h)]

/-- A write to R02 sets every flag to its bit of the value (R32). -/
theorem flag_writeReg_flags (s : State) (v : Word) (f : Flag) :
    (s.writeReg flagsReg v).flag f = v.getLsbD f.bit := by
  rw [flag_eq_readReg]
  simp [f.bit_mask]

end Sys2Proof.Machine
end

