-- ==== Sys2Proof/Laws/Flags.lean ====
section
/-! SUPPORT. What every flag operation does: the flags it sets, and that it changes nothing but flags of R02
and the count of draws. -/

namespace Sys2Proof.Machine

/-- `t` differs from `s` at most in the eleven result flags of R02 and the count of draws. -/
structure FlagsOnly (s t : State) : Prop where
  regs : ∀ q : RegNum, q ≠ flagsReg → t.regs[q.val] = s.regs[q.val]
  rest : ∀ i, 11 ≤ i → i < 32 → t.regs[2].getLsbD i = s.regs[2].getLsbD i
  mem : t.mem = s.mem
  stale : t.stale = s.stale
  map : t.map = s.map

namespace FlagsOnly

theorem refl (s : State) : FlagsOnly s s := ⟨fun _ _ => rfl, fun _ _ _ => rfl, rfl, rfl, rfl⟩

theorem trans {s t u : State} (h : FlagsOnly s t) (k : FlagsOnly t u) : FlagsOnly s u :=
  ⟨fun q hq => (k.regs q hq).trans (h.regs q hq), fun i hi hj => (k.rest i hi hj).trans (h.rest i hi hj),
    k.mem.trans h.mem, k.stale.trans h.stale, k.map.trans h.map⟩

/-- Registers other than R02 read as before. -/
theorem readReg {s t : State} (h : FlagsOnly s t) {q : RegNum} (hq : q ≠ flagsReg) :
    t.readReg q = s.readReg q := by
  simp only [State.readReg, hq, if_false]
  exact h.regs q hq

/-- EI is never touched by a flag update (R37). -/
theorem ei {s t : State} (h : FlagsOnly s t) : t.flag .ei = s.flag .ei := h.rest 31 (by omega) (by omega)

theorem pc {s t : State} (h : FlagsOnly s t) : t.pc = s.pc := h.regs 0 (by decide)

end FlagsOnly

theorem Flag.bit_le {f : Flag} (h : f ≠ .ei) : f.bit ≤ 10 := by cases f <;> first | decide | exact absurd rfl h

theorem setFlag_flagsOnly (s : State) {f : Flag} (h : f ≠ .ei) (b : Bool) : FlagsOnly s (s.setFlag f b) where
  regs _ hq := regs_setFlag_other s f b hq
  rest i hi hj := by
    rw [getElem_congr_coll (setFlag_regs s f b), Vector.getElem_set_self, getLsbD_setBit _ _ f.bit_lt hj]
    have := Flag.bit_le h
    rw [if_neg (by omega)]
  mem := rfl
  stale := rfl
  map := rfl

theorem drawn_flagsOnly (s : State) : FlagsOnly s s.drawn :=
  ⟨fun _ _ => rfl, fun _ _ _ => rfl, rfl, rfl, rfl⟩

/-! ## flags_result (R35) -/

/-- Z, P, S8, S16, S32 from the result, the other flags as before. -/
theorem flag_flagsResult (s : State) (r : Word) (g : Flag) :
    (s.flagsResult r).flag g =
      match g with
      | .z => r == 0
      | .p => parityEven r
      | .s8 => r.getLsbD 7
      | .s16 => r.getLsbD 15
      | .s32 => r.getLsbD 31
      | g => s.flag g := by
  cases g <;> simp [State.flagsResult, flag_setFlag]

theorem flagsResult_flagsOnly (s : State) (r : Word) : FlagsOnly s (s.flagsResult r) :=
  ((((setFlag_flagsOnly s (by decide) _).trans (setFlag_flagsOnly _ (by decide) _)).trans
    (setFlag_flagsOnly _ (by decide) _)).trans (setFlag_flagsOnly _ (by decide) _)).trans
    (setFlag_flagsOnly _ (by decide) _)

@[simp] theorem flagsResult_mem (s : State) (r : Word) : (s.flagsResult r).mem = s.mem := rfl
@[simp] theorem flagsResult_stale (s : State) (r : Word) : (s.flagsResult r).stale = s.stale := rfl
@[simp] theorem flagsResult_map (s : State) (r : Word) : (s.flagsResult r).map = s.map := rfl
@[simp] theorem flagsResult_draws (s : State) (r : Word) : (s.flagsResult r).draws = s.draws := rfl

/-! ## flags_add and flags_sub (R29) -/

/-- The six carry and overflow flags of an addition, the others as before. -/
theorem flag_flagsAdd (s : State) (a b : Word) (c : Bool) (g : Flag) :
    (s.flagsAdd a b c).flag g =
      match g with
      | .c8 => addCarry 8 a b c
      | .c16 => addCarry 16 a b c
      | .c32 => addCarry 32 a b c
      | .o8 => addOverflow 8 a b c
      | .o16 => addOverflow 16 a b c
      | .o32 => addOverflow 32 a b c
      | g => s.flag g := by
  cases g <;> simp [State.flagsAdd, flag_setFlag]

/-- The six borrow and overflow flags of a subtraction, the others as before. -/
theorem flag_flagsSub (s : State) (a b : Word) (c : Bool) (g : Flag) :
    (s.flagsSub a b c).flag g =
      match g with
      | .c8 => subBorrow 8 a b c
      | .c16 => subBorrow 16 a b c
      | .c32 => subBorrow 32 a b c
      | .o8 => subOverflow 8 a b c
      | .o16 => subOverflow 16 a b c
      | .o32 => subOverflow 32 a b c
      | g => s.flag g := by
  cases g <;> simp [State.flagsSub, flag_setFlag]

theorem flagsAdd_flagsOnly (s : State) (a b : Word) (c : Bool) : FlagsOnly s (s.flagsAdd a b c) :=
  (((((setFlag_flagsOnly s (by decide) _).trans (setFlag_flagsOnly _ (by decide) _)).trans
    (setFlag_flagsOnly _ (by decide) _)).trans (setFlag_flagsOnly _ (by decide) _)).trans
    (setFlag_flagsOnly _ (by decide) _)).trans (setFlag_flagsOnly _ (by decide) _)

theorem flagsSub_flagsOnly (s : State) (a b : Word) (c : Bool) : FlagsOnly s (s.flagsSub a b c) :=
  (((((setFlag_flagsOnly s (by decide) _).trans (setFlag_flagsOnly _ (by decide) _)).trans
    (setFlag_flagsOnly _ (by decide) _)).trans (setFlag_flagsOnly _ (by decide) _)).trans
    (setFlag_flagsOnly _ (by decide) _)).trans (setFlag_flagsOnly _ (by decide) _)

@[simp] theorem flagsAdd_draws (s : State) (a b : Word) (c : Bool) : (s.flagsAdd a b c).draws = s.draws := rfl
@[simp] theorem flagsSub_draws (s : State) (a b : Word) (c : Bool) : (s.flagsSub a b c).draws = s.draws := rfl

/-! ## Drawn flags (R33) -/

/-- The listed flags take their bits of the values, the others stay. -/
theorem flag_setFlags (values : BitVec 11) (fs : List Flag) (s : State) (g : Flag) :
    (s.setFlags values fs).flag g = if g ∈ fs then values.getLsbD g.bit else s.flag g := by
  induction fs generalizing s with
  | nil => simp
  | cons f fs ih =>
    rw [setFlags_cons, ih, flag_setFlag]
    by_cases hm : g ∈ fs
    · simp [hm]
    · by_cases hf : g = f
      · subst hf; simp
      · simp [hm, hf]

theorem setFlags_flagsOnly (values : BitVec 11) (fs : List Flag) (h : Flag.ei ∉ fs) (s : State) :
    FlagsOnly s (s.setFlags values fs) := by
  induction fs generalizing s with
  | nil => exact .refl s
  | cons f fs ih =>
    simp only [List.mem_cons, not_or] at h
    exact (setFlag_flagsOnly s (Ne.symm h.1) _).trans (ih h.2 _)

/-- The listed flags take free values, the others stay. -/
theorem flag_drawFlags (s : State) (source : Nat → List Word → BitVec 11) (ops : List Word) (fs : List Flag)
    (g : Flag) :
    (s.drawFlags source ops fs).flag g = if g ∈ fs then (source s.draws ops).getLsbD g.bit else s.flag g := by
  rw [drawFlags_eq, drawn_flag, flag_setFlags]

theorem drawFlags_flagsOnly (s : State) (source : Nat → List Word → BitVec 11) (ops : List Word)
    (fs : List Flag) (h : Flag.ei ∉ fs) :
    FlagsOnly s (s.drawFlags source ops fs) :=
  (setFlags_flagsOnly _ fs h s).trans (drawn_flagsOnly _)

@[simp] theorem drawFlags_draws (s : State) (source : Nat → List Word → BitVec 11) (ops : List Word)
    (fs : List Flag) :
    (s.drawFlags source ops fs).draws = s.draws + 1 := by
  have : ∀ (v : BitVec 11) (l : List Flag) (u : State), (u.setFlags v l).draws = u.draws := by
    intro v l
    induction l with
    | nil => intro u; rfl
    | cons f l ih => intro u; rw [setFlags_cons, ih]; rfl
  rw [drawFlags_eq, drawn_draws, this]

/-! ## A result with its flags -/

/-- Once the flags of `u` stand, writing `r` to Rdd changes Rdd alone: everything `writeResult` after a flag
update of `s` does. With Rdd = R02 the result stays (R36). -/
theorem writeResult_spec {s u : State} (h : FlagsOnly s u) (d : RegNum) (r : Word) :
    (u.writeResult d r).readReg d = storedIn d r ∧
    (∀ q : RegNum, q ≠ d → q ≠ flagsReg → (u.writeResult d r).readReg q = s.readReg q) ∧
    (d ≠ flagsReg → ∀ g, (u.writeResult d r).flag g = u.flag g) ∧
    (u.writeResult d r).mem = s.mem ∧ (u.writeResult d r).stale = s.stale ∧ (u.writeResult d r).map = s.map := by
  refine ⟨by simp, fun q hq h2 => ?_, fun hd g => ?_, h.mem, h.stale, h.map⟩
  · rw [writeResult_eq, readReg_writeReg_other _ _ hq, h.readReg h2]
  · rw [writeResult_eq, flag_writeReg_other _ _ hd]

theorem loadLogic_flagsOnly (s : State) (ops : List Word) (r : Word) :
    FlagsOnly s ((s.flagsResult r).drawFlags Config.flagsAuxLogic ops auxLogicFlags) :=
  (flagsResult_flagsOnly s r).trans (drawFlags_flagsOnly _ _ _ _ (by decide))

/-- Everything the loads and the logic instructions do with their value (R100, R120). -/
theorem loadLogicResult_spec (s : State) (d : RegNum) (ops : List Word) (r : Word) :
    (s.loadLogicResult d ops r).readReg d = storedIn d r ∧
    (∀ q : RegNum, q ≠ d → q ≠ flagsReg → (s.loadLogicResult d ops r).readReg q = s.readReg q) ∧
    (d ≠ flagsReg → ∀ g, g ∉ auxLogicFlags → (s.loadLogicResult d ops r).flag g = (s.flagsResult r).flag g) ∧
    (s.loadLogicResult d ops r).mem = s.mem ∧ (s.loadLogicResult d ops r).stale = s.stale ∧
    (s.loadLogicResult d ops r).map = s.map := by
  obtain ⟨h1, h2, h3, h4, h5⟩ := writeResult_spec (loadLogic_flagsOnly s ops r) d r
  refine ⟨h1, h2, fun hd g hg => ?_, h4, h5⟩
  rw [State.loadLogicResult, h3 hd g, flag_drawFlags, if_neg hg]

end Sys2Proof.Machine
end

