-- ==== Sys2Proof/Laws/Memory.lean ====
section
/-! SUPPORT. The laws of memory: a read after a write, and every operation keeps the canonical form. -/

namespace Sys2Proof.Machine

/-! ## Reading after an operation -/

theorem read_insert (m : Memory) (a : Nat) (v : Byte) (b : Nat) (h : ∀ c ∈ m, c.1 ≠ a) :
    (m.insert a v).read b = if b = a then v else m.read b := by
  induction m with
  | nil =>
    by_cases hb : a = b
    · simp [Memory.insert, Memory.read, hb]
    · simp [Memory.insert, Memory.read, hb, Ne.symm hb]
  | cons c rest ih =>
    obtain ⟨k, x⟩ := c
    have hk : k ≠ a := h (k, x) (by simp)
    have ih' := ih fun c hc => h c (by simp [hc])
    unfold Memory.insert
    split
    · by_cases hb : a = b
      · simp [Memory.read, hb]
      · simp [Memory.read, hb, Ne.symm hb]
    · simp only [Memory.read]
      by_cases hkb : k = b
      · have : b ≠ a := hkb ▸ hk
        simp [hkb, this]
      · simp [hkb, ih']

theorem read_erase (m : Memory) (a b : Nat) :
    (m.erase a).read b = if b = a then Config.unwrittenByte else m.read b := by
  induction m with
  | nil => by_cases hb : b = a <;> simp [Memory.erase, Memory.read, hb]
  | cons c rest ih =>
    obtain ⟨k, x⟩ := c
    simp only [Memory.erase] at ih ⊢
    by_cases hk : k = a
    · subst hk
      simp only [List.filter_cons, bne_self_eq_false, Bool.false_eq_true, if_false, ih, Memory.read]
      by_cases hb : b = k
      · simp [hb]
      · simp [hb, Ne.symm hb]
    · simp only [List.filter_cons, bne_iff_ne, ne_eq, hk, not_false_eq_true, if_true, Memory.read, ih]
      by_cases hb : k = b
      · subst hb; simp [hk]
      · simp [hb]

theorem mem_erase_ne {m : Memory} {a : Nat} {c : Host.Cell} (h : c ∈ m.erase a) : c.1 ≠ a := by
  simpa using (List.mem_filter.mp h).2

/-- Everything a write of one byte does, in any memory. -/
theorem read_write (m : Memory) (a : Nat) (v : Byte) (b : Nat) :
    (m.write a v).read b = if b = a then v else m.read b := by
  unfold Memory.write
  split
  · next h => rw [read_erase, h]
  · rw [read_insert _ _ _ _ fun c hc => mem_erase_ne hc, read_erase]
    by_cases hb : b = a <;> simp [hb]

@[simp] theorem read_write_same (m : Memory) (a : Nat) (v : Byte) : (m.write a v).read a = v := by
  simp [read_write]

theorem read_write_other (m : Memory) (v : Byte) {a b : Nat} (h : b ≠ a) :
    (m.write a v).read b = m.read b := by
  simp [read_write, h]

/-! ## The canonical form -/

theorem risingFrom_mono {lo lo' : Nat} (h : lo ≤ lo') {m : Memory} (hm : Memory.risingFrom lo' m = true) :
    Memory.risingFrom lo m = true := by
  cases m with
  | nil => rfl
  | cons c rest =>
    simp only [Memory.risingFrom, Bool.and_eq_true, decide_eq_true_eq] at hm ⊢
    exact ⟨by omega, hm.2⟩

theorem risingFrom_erase (m : Memory) (a : Nat) : ∀ lo, Memory.risingFrom lo m = true →
    Memory.risingFrom lo (m.erase a) = true := by
  induction m with
  | nil => intro lo h; exact h
  | cons c rest ih =>
    intro lo h
    obtain ⟨k, x⟩ := c
    simp only [Memory.risingFrom, Bool.and_eq_true, decide_eq_true_eq] at h
    simp only [Memory.erase, List.filter_cons]
    split
    · simp only [Memory.risingFrom, Bool.and_eq_true, decide_eq_true_eq]
      exact ⟨h.1, ih _ h.2⟩
    · exact risingFrom_mono (by omega) (ih _ h.2)

theorem risingFrom_insert (m : Memory) (a : Nat) (v : Byte) (hne : ∀ c ∈ m, c.1 ≠ a) :
    ∀ lo, lo ≤ a → Memory.risingFrom lo m = true → Memory.risingFrom lo (m.insert a v) = true := by
  induction m with
  | nil => intro lo hlo _; simp [Memory.insert, Memory.risingFrom, hlo]
  | cons c rest ih =>
    intro lo hlo h
    obtain ⟨k, x⟩ := c
    have hk : k ≠ a := hne (k, x) (by simp)
    simp only [Memory.risingFrom, Bool.and_eq_true, decide_eq_true_eq] at h
    unfold Memory.insert
    split
    · next hak =>
      simp only [Memory.risingFrom, Bool.and_eq_true, decide_eq_true_eq]
      exact ⟨hlo, by omega, h.2⟩
    · next hak =>
      simp only [Memory.risingFrom, Bool.and_eq_true, decide_eq_true_eq]
      exact ⟨h.1, ih (fun c hc => hne c (by simp [hc])) _ (by omega) h.2⟩

theorem mem_insert {m : Memory} {a : Nat} {v : Byte} {c : Host.Cell} (h : c ∈ m.insert a v) :
    c = (a, v) ∨ c ∈ m := by
  induction m with
  | nil => exact .inl (by simpa [Memory.insert] using h)
  | cons e rest ih =>
    obtain ⟨k, x⟩ := e
    unfold Memory.insert at h
    split at h
    · simpa using h
    · rcases List.mem_cons.mp h with rfl | h'
      · simp
      · rcases ih h' with h'' | h''
        · exact .inl h''
        · exact .inr (by simp [h''])

/-- Writing a byte at a 32-bit address keeps the canonical form. -/
theorem wf_write {m : Memory} (h : m.wf = true) {a : Nat} (ha : a < 2 ^ 32) (v : Byte) :
    (m.write a v).wf = true := by
  simp only [Memory.wf, Bool.and_eq_true, List.all_eq_true, decide_eq_true_eq, bne_iff_ne] at h ⊢
  unfold Memory.write
  split
  · exact ⟨risingFrom_erase m a 0 h.1, fun c hc => h.2 c (List.mem_of_mem_filter hc)⟩
  · next hv =>
    refine ⟨risingFrom_insert _ _ _ (fun c hc => mem_erase_ne hc) 0 (Nat.zero_le _)
      (risingFrom_erase m a 0 h.1), fun c hc => ?_⟩
    rcases mem_insert hc with rfl | hc'
    · exact ⟨ha, hv⟩
    · exact h.2 c (List.mem_of_mem_filter hc')

theorem wf_write8 {m : Memory} (h : m.wf = true) (a : Word) (v : BitVec 8) : (m.write8 a v).wf = true :=
  wf_write h a.isLt v

theorem wf_write16 {m : Memory} (h : m.wf = true) (a : Word) (v : BitVec 16) :
    (m.write16 a v).wf = true :=
  wf_write8 (wf_write8 h _ _) _ _

theorem wf_write32 {m : Memory} (h : m.wf = true) (a v : Word) : (m.write32 a v).wf = true :=
  wf_write8 (wf_write8 (wf_write8 (wf_write8 h _ _) _ _) _ _) _ _

/-! ## The address map -/

/-- An address exists when one of the ranges holds it. -/
theorem has_iff (m : MemMap) (a : Nat) : m.has a = true ↔ ∃ r ∈ m, r.base ≤ a ∧ a < r.base + r.size := by
  simp [MemMap.has]

/-- An access is possible when each of its bytes exists. -/
theorem accessOk_iff (s : State) (a : Word) (n : Nat) :
    s.accessOk a n = true ↔ ∀ k, k < n → s.map.has (a + BitVec.ofNat 32 k).toNat = true := by
  simp [State.accessOk, span]

/-- Whether an access is possible depends on MEMMAP alone. -/
theorem accessOk_congr {s t : State} (h : t.map = s.map) (a : Word) (n : Nat) : t.accessOk a n = s.accessOk a n := by
  simp [State.accessOk, h]

@[simp] theorem wholeSpace_has (a : Word) : wholeSpace.has a.toNat = true := by
  simp [has_iff, wholeSpace, a.isLt]

/-- With MEMMAP the whole address space, every access is possible. -/
theorem accessOk_wholeSpace {s : State} (h : s.map = wholeSpace) (a : Word) (n : Nat) : s.accessOk a n = true := by
  rw [accessOk_iff, h]
  exact fun k _ => wholeSpace_has _

/-- A byte is listed after a write only if it was listed or is the one written. -/
theorem mem_write {m : Memory} {a : Nat} {v : Byte} {c : Host.Cell} (h : c ∈ m.write a v) : c.1 = a ∨ c ∈ m := by
  unfold Memory.write at h
  split at h
  · exact .inr (List.mem_filter.mp h).1
  · rcases mem_insert h with rfl | h
    · exact .inl rfl
    · exact .inr (List.mem_filter.mp h).1

/-- A write to an existing byte keeps memory within MEMMAP. -/
theorem all_has_write {m : Memory} {map : MemMap} (h : (m.all fun c => map.has c.1) = true) {a : Nat}
    (ha : map.has a = true) (v : Byte) : ((m.write a v).all fun c => map.has c.1) = true := by
  simp only [List.all_eq_true] at h ⊢
  intro c hc
  rcases mem_write hc with e | e
  · rw [e]; exact ha
  · exact h c e

/-! ## Wide accesses -/

/-- Two of the four addresses of a 4-byte access are equal only if their offsets are. -/
theorem add_toNat_inj (a : Word) {j k : Nat} (hj : j < 4) (hk : k < 4)
    (h : (a + BitVec.ofNat 32 j).toNat = (a + BitVec.ofNat 32 k).toNat) : j = k := by
  have h' := BitVec.toNat_inj.mp h
  have := (BitVec.add_right_inj a).mp h'
  have h2 := congrArg BitVec.toNat this
  simp only [BitVec.toNat_ofNat] at h2
  omega

theorem mem_span (a : Word) {n k b : Nat} (hk : k < n) (h : (a + BitVec.ofNat 32 k).toNat = b) :
    b ∈ span a n :=
  List.mem_map.mpr ⟨k, List.mem_range.mpr hk, h⟩

/-- Outside its bytes a 1-byte write changes nothing. -/
theorem read_write8_outside (m : Memory) (a : Word) (v : BitVec 8) {b : Nat} (h : b ∉ span a 1) :
    (m.write8 a v).read b = m.read b := by
  refine read_write_other _ _ fun hb => h ?_
  exact mem_span a (k := 0) (by omega) (by simp [hb])

/-- Outside its bytes a 2-byte write changes nothing. -/
theorem read_write16_outside (m : Memory) (a : Word) (v : BitVec 16) {b : Nat} (h : b ∉ span a 2) :
    (m.write16 a v).read b = m.read b := by
  have h0 : ¬a.toNat = b := fun e => h (mem_span a (n := 2) (k := 0) (by omega) (by simpa using e))
  have h1 : ¬(a + 1).toNat = b := fun e => h (mem_span a (n := 2) (k := 1) (by omega) e)
  simp only [Memory.write16, Memory.write8]
  rw [read_write_other _ _ (Ne.symm h1), read_write_other _ _ (Ne.symm h0)]

/-- Outside its bytes a 4-byte write changes nothing. -/
theorem read_write32_outside (m : Memory) (a v : Word) {b : Nat} (h : b ∉ span a 4) :
    (m.write32 a v).read b = m.read b := by
  have h0 : ¬a.toNat = b := fun e => h (mem_span a (n := 4) (k := 0) (by omega) (by simpa using e))
  have h1 : ¬(a + 1).toNat = b := fun e => h (mem_span a (n := 4) (k := 1) (by omega) e)
  have h2 : ¬(a + 2).toNat = b := fun e => h (mem_span a (n := 4) (k := 2) (by omega) e)
  have h3 : ¬(a + 3).toNat = b := fun e => h (mem_span a (n := 4) (k := 3) (by omega) e)
  simp only [Memory.write32, Memory.write8]
  rw [read_write_other _ _ (Ne.symm h3), read_write_other _ _ (Ne.symm h2),
    read_write_other _ _ (Ne.symm h1), read_write_other _ _ (Ne.symm h0)]

/-- The four bytes a 4-byte write leaves, in big-endian order. -/
theorem read8_write32 (m : Memory) (a v : Word) :
    (m.write32 a v).read8 a = v.extractLsb' 24 8 ∧
    (m.write32 a v).read8 (a + 1) = v.extractLsb' 16 8 ∧
    (m.write32 a v).read8 (a + 2) = v.extractLsb' 8 8 ∧
    (m.write32 a v).read8 (a + 3) = v.extractLsb' 0 8 := by
  have ne : ∀ j k : Nat, j < 4 → k < 4 → j ≠ k →
      ¬(a + BitVec.ofNat 32 j).toNat = (a + BitVec.ofNat 32 k).toNat :=
    fun j k hj hk hne h => hne (add_toNat_inj a hj hk h)
  have e0 : (a + BitVec.ofNat 32 0).toNat = a.toNat := by simp
  have n01 : ¬a.toNat = (a + 1).toNat := e0 ▸ ne 0 1 (by omega) (by omega) (by omega)
  have n02 : ¬a.toNat = (a + 2).toNat := e0 ▸ ne 0 2 (by omega) (by omega) (by omega)
  have n03 : ¬a.toNat = (a + 3).toNat := e0 ▸ ne 0 3 (by omega) (by omega) (by omega)
  have n12 : ¬(a + 1).toNat = (a + 2).toNat := ne 1 2 (by omega) (by omega) (by omega)
  have n13 : ¬(a + 1).toNat = (a + 3).toNat := ne 1 3 (by omega) (by omega) (by omega)
  have n23 : ¬(a + 2).toNat = (a + 3).toNat := ne 2 3 (by omega) (by omega) (by omega)
  simp only [Memory.write32, Memory.write8, Memory.read8, read_write]
  simp only [n01, n02, n03, n12, n13, n23, if_true, if_false, and_self]

/-- Four bytes put together again are the word they were cut from. -/
theorem append_bytes (v : Word) :
    v.extractLsb' 24 8 ++ v.extractLsb' 16 8 ++ v.extractLsb' 8 8 ++ v.extractLsb' 0 8 = v := by
  apply BitVec.eq_of_getLsbD_eq
  intro i hi
  simp only [BitVec.getLsbD_append, BitVec.getLsbD_extractLsb']
  rcases Nat.lt_or_ge i 8 with h | h
  · simp [h]
  rcases Nat.lt_or_ge i 16 with h' | h'
  · simp [show ¬i < 8 by omega, show i - 8 < 8 by omega]; congr 1; omega
  rcases Nat.lt_or_ge i 24 with h'' | h''
  · simp [show ¬i < 8 by omega, show ¬i - 8 < 8 by omega, show i - 8 - 8 < 8 by omega]; congr 1; omega
  · simp [show ¬i < 8 by omega, show ¬i - 8 < 8 by omega, show ¬i - 8 - 8 < 8 by omega,
      show i - 8 - 8 - 8 < 8 by omega]
    congr 1; omega

/-- R52: a double word read where it was written is the one written. -/
@[simp] theorem read32_write32 (m : Memory) (a v : Word) : (m.write32 a v).read32 a = v := by
  obtain ⟨h0, h1, h2, h3⟩ := read8_write32 m a v
  rw [Memory.read32, h0, h1, h2, h3, append_bytes]

end Sys2Proof.Machine
end

