-- ==== Sys2Proof/Laws/Operands.lean ====
section
/-! SUPPORT. The 1-, 2- and 4-byte memory operands (spec/20_memory.md R51, R52, R56): what a store leaves in memory,
and that a load of the same width reads it back. -/

namespace Sys2Proof.Machine

/-! ## Reading back -/

@[simp] theorem read8_write8 (m : Memory) (a : Word) (v : BitVec 8) : (m.write8 a v).read8 a = v :=
  read_write_same _ _ _

/-- The two bytes a 2-byte write leaves, in big-endian order. -/
theorem read8_write16 (m : Memory) (a : Word) (v : BitVec 16) :
    (m.write16 a v).read8 a = v.extractLsb' 8 8 ∧ (m.write16 a v).read8 (a + 1) = v.extractLsb' 0 8 := by
  have h : a.toNat ≠ (a + 1).toNat := fun e =>
    absurd (add_toNat_inj a (j := 0) (k := 1) (by omega) (by omega) (by simpa using e)) (by omega)
  refine ⟨?_, read_write_same _ _ _⟩
  rw [Memory.write16, Memory.read8, Memory.write8, read_write_other _ _ h]
  exact read_write_same _ _ _

@[simp] theorem read16_write16 (m : Memory) (a : Word) (v : BitVec 16) : (m.write16 a v).read16 a = v := by
  obtain ⟨h0, h1⟩ := read8_write16 m a v
  rw [Memory.read16, h0, h1]
  apply BitVec.eq_of_getLsbD_eq
  intro i hi
  simp only [BitVec.getLsbD_append, BitVec.getLsbD_extractLsb']
  rcases Nat.lt_or_ge i 8 with h | h
  · simp [h]
  · simp [show ¬i < 8 by omega, show i - 8 < 8 by omega]; congr 1; omega

/-! ## Stores -/

/-- Outside the bytes it names a store changes nothing. -/
theorem read_storeMemory_outside (mode : StoreMode) (m : Memory) (a v : Word) {b : Nat}
    (h : b ∉ span a (storeBytes mode)) : (storeMemory mode m a v).read b = m.read b := by
  cases mode
  · exact read_write8_outside m a _ h
  · exact read_write16_outside m a _ h
  · exact read_write32_outside m a _ h

/-- A store keeps memory in its canonical form. -/
theorem wf_storeMemory (mode : StoreMode) {m : Memory} (h : m.wf = true) (a v : Word) :
    (storeMemory mode m a v).wf = true := by
  cases mode
  · exact wf_write8 h _ _
  · exact wf_write16 h _ _
  · exact wf_write32 h _ _

/-- A store to existing bytes keeps memory within MEMMAP. -/
theorem all_has_storeMemory (mode : StoreMode) {s : State} (h : (s.mem.all fun c => s.map.has c.1) = true) (a v : Word)
    (ha : s.accessOk a (storeBytes mode) = true) :
    ((storeMemory mode s.mem a v).all fun c => s.map.has c.1) = true := by
  rw [accessOk_iff] at ha
  have h0 : 0 < storeBytes mode → s.map.has a.toNat = true := fun hk => by simpa using ha 0 hk
  have hb : ∀ k, k < storeBytes mode → s.map.has (a + BitVec.ofNat 32 k).toNat = true := ha
  cases mode
  · exact all_has_write h (h0 (by decide)) _
  · exact all_has_write (all_has_write h (h0 (by decide)) _) (hb 1 (by decide)) _
  · exact all_has_write (all_has_write (all_has_write (all_has_write h (h0 (by decide)) _) (hb 1 (by decide)) _)
      (hb 2 (by decide)) _) (hb 3 (by decide)) _

end Sys2Proof.Machine
end

