-- ==== Sys2Proof/Laws/Ops.lean ====
section
/-! SUPPORT. What the stack operations, the fetch and the advance of R00 do, and which updates keep R00 aligned
and bits 30:11 of R02 zero. -/

namespace Sys2Proof.Machine

/-! ## The stack (R180, R181) -/

/-- Everything a push does. -/
theorem pushWord_spec (s : State) (v : Word) :
    (s.pushWord v).readReg spReg = s.readReg spReg + 4 ∧
    (∀ q : RegNum, q ≠ spReg → (s.pushWord v).readReg q = s.readReg q) ∧
    (s.pushWord v).mem = s.mem.write32 (s.readReg spReg) v ∧
    (s.pushWord v).stale = s.stale ∧ (s.pushWord v).map = s.map ∧ (s.pushWord v).draws = s.draws :=
  ⟨by simp [State.pushWord], fun q hq => by simp [State.pushWord, readReg_writeReg_other _ _ hq], rfl, rfl, rfl, rfl⟩

/-- Everything a pop does; into R01 the loaded value stays. -/
theorem popInto_spec (s : State) (d : RegNum) :
    (s.popInto d).readReg d = storedIn d (s.mem.read32 s.topAddress) ∧
    (d ≠ spReg → (s.popInto d).readReg spReg = s.topAddress) ∧
    (∀ q : RegNum, q ≠ d → q ≠ spReg → (s.popInto d).readReg q = s.readReg q) ∧
    (s.popInto d).mem = s.mem ∧ (s.popInto d).stale = s.stale ∧ (s.popInto d).map = s.map ∧
    (s.popInto d).draws = s.draws := by
  refine ⟨by simp [State.popInto], fun hd => ?_, fun q hq h1 => ?_, rfl, rfl, rfl, rfl⟩
  · simp [State.popInto, readReg_writeReg_other _ _ (Ne.symm hd)]
  · simp [State.popInto, readReg_writeReg_other _ _ hq, readReg_writeReg_other _ _ h1]

/-! ## Fetch and advance (R22) -/

theorem fetchWord_none {s : State} (h : s.stale = none) : s.fetchWord = s.mem.read32 s.pc := by
  simp [State.fetchWord, h]

theorem fetchWord_some {s : State} {old : Word} (h : s.stale = some old) :
    s.fetchWord =
      mixBytes (Config.fetchSeesOld s.draws [s.pc, old, s.mem.read32 s.pc]) old (s.mem.read32 s.pc) := by
  simp [State.fetchWord, h]

/-- The word placed by `withFetchWord` is the word `step` fetches. -/
theorem fetchWord_withFetchWord (s : State) (k w : Nat) :
    (s.withFetchWord k w).fetchWord = BitVec.ofNat 32 (w % 2 ^ k) := by
  rw [fetchWord_none (withFetchWord_stale s k w)]
  exact read32_write32 _ _ _

/-- While the instruction executes R00 holds the next instruction's address (R23). -/
theorem advance_pc (s : State) : s.advance.pc = (s.pc + 4) &&& pcMask := by
  rw [pc_eq_readReg, advance_readReg]; simp

theorem advance_readReg_other (s : State) {q : RegNum} (h : q ≠ pcReg) :
    s.advance.readReg q = s.readReg q := by
  rw [advance_readReg, readReg_writeReg_other _ _ h]

/-- The advance of R00 leaves the flags. -/
theorem advance_flag (s : State) (f : Flag) : s.advance.flag f = s.flag f := by
  rw [flag_eq_readReg, flag_eq_readReg, advance_readReg_other s (by decide)]

/-! ## The invariant's parts -/

theorem and_mask_and_not (v m : Word) : v &&& m &&& ~~~m = 0 := by
  rw [BitVec.and_assoc]; simp

theorem pcAligned_writeReg {s : State} (h : s.pcAligned = true) (r : RegNum) (v : Word) :
    (s.writeReg r v).pcAligned = true := by
  simp only [State.pcAligned, beq_iff_eq, pc_eq_readReg] at h ⊢
  rw [readReg_writeReg]
  split
  · next e => subst e; rw [storedIn_pc]; exact and_mask_and_not _ _
  · exact h

theorem reservedZero_writeReg {s : State} (h : s.reservedZero = true) (r : RegNum) (v : Word) :
    (s.writeReg r v).reservedZero = true := by
  simp only [State.reservedZero, beq_iff_eq] at h ⊢
  have e := regs_writeReg s r v flagsReg
  rw [show (s.writeReg r v).regs[2] = (s.writeReg r v).regs[flagsReg.val] from rfl, e]
  split
  · next e => subst e; rw [storedIn_flags]; exact and_mask_and_not _ _
  · exact h

theorem pcAligned_flagsOnly {s t : State} (h : FlagsOnly s t) (hs : s.pcAligned = true) :
    t.pcAligned = true := by
  simpa [State.pcAligned, h.pc] using hs

theorem reservedZero_flagsOnly {s t : State} (h : FlagsOnly s t) (hs : s.reservedZero = true) :
    t.reservedZero = true := by
  simp only [State.reservedZero, beq_iff_eq] at hs ⊢
  apply BitVec.eq_of_getLsbD_eq
  intro i hi
  have := congrArg (fun w => BitVec.getLsbD w i) hs
  simp only [BitVec.getLsbD_and, BitVec.getLsbD_not, hi, decide_true, Bool.true_and,
    getLsbD_flagsMask i hi] at this ⊢
  rcases Nat.lt_or_ge i 11 with hlt | hge
  · simp [show i ≤ 10 by omega]
  · rw [h.rest i hge hi]; exact this

end Sys2Proof.Machine
end

