-- ==== Sys2Proof/Laws/PerInstr.lean ====
section
/-! SUPPORT. Per-instruction family CanonicalForm: the word the encoder writes has every constant bit of its row of
the encoding table (spec/30_encoding.md R86), filler zero, so it is an instruction under FILLER_POLICY = strict
too. -/

namespace Sys2Proof.Laws.CanonicalForm

/-- `w & mask = match` for the encoded word and its instruction's row (R86, R80). -/
def Statement (i : Instr) : Prop := encode i &&& i.row.mask = i.row.bits

/-- A masked word equals a constant when each of its 32 bits does. -/
theorem mask_eq_of_bits {w m b : Word}
    (h : ∀ j : Fin 32, (w.getLsbD j.val && m.getLsbD j.val) = b.getLsbD j.val) : w &&& m = b := by
  apply BitVec.eq_of_getLsbD_eq
  intro j hj
  rw [BitVec.getLsbD_and]
  exact h ⟨j, hj⟩

theorem loadd (d : RegNum) (imm : BitVec 16) (mode : ImmMode) :
    Statement (.loadd d imm mode) := by
  apply mask_eq_of_bits
  intro j
  simp only [encode, Instr.row, BitVec.getLsbD_append]
  fin_cases j <;> simp

theorem loadr (d n : RegNum) (mode : LoadMode) :
    Statement (.loadr d n mode) := by
  apply mask_eq_of_bits
  intro j
  simp only [encode, Instr.row, BitVec.getLsbD_append]
  fin_cases j <;> simp

theorem loadm (d m : RegNum) (mode : LoadMode) :
    Statement (.loadm d m mode) := by
  apply mask_eq_of_bits
  intro j
  simp only [encode, Instr.row, BitVec.getLsbD_append]
  fin_cases j <;> simp

theorem store (n m : RegNum) (mode : StoreMode) :
    Statement (.store n m mode) := by
  apply mask_eq_of_bits
  intro j
  simp only [encode, Instr.row, BitVec.getLsbD_append]
  fin_cases j <;> simp

theorem and (d n m : RegNum) :
    Statement (.and d n m) := by
  apply mask_eq_of_bits
  intro j
  simp only [encode, Instr.row, BitVec.getLsbD_append]
  fin_cases j <;> simp

theorem or (d n m : RegNum) :
    Statement (.or d n m) := by
  apply mask_eq_of_bits
  intro j
  simp only [encode, Instr.row, BitVec.getLsbD_append]
  fin_cases j <;> simp

theorem xor (d n m : RegNum) :
    Statement (.xor d n m) := by
  apply mask_eq_of_bits
  intro j
  simp only [encode, Instr.row, BitVec.getLsbD_append]
  fin_cases j <;> simp

theorem rot (d n : RegNum) (step : Fin 32) (dir : RotDir) (mode : RotMode) :
    Statement (.rot d n step dir mode) := by
  apply mask_eq_of_bits
  intro j
  simp only [encode, Instr.row, BitVec.getLsbD_append]
  fin_cases j <;> simp

theorem addr (d n m : RegNum) (mode : AddMode) :
    Statement (.addr d n m mode) := by
  apply mask_eq_of_bits
  intro j
  simp only [encode, Instr.row, BitVec.getLsbD_append]
  fin_cases j <;> simp

theorem addd (d n : RegNum) (value : BitVec 16) :
    Statement (.addd d n value) := by
  apply mask_eq_of_bits
  intro j
  simp only [encode, Instr.row, BitVec.getLsbD_append]
  fin_cases j <;> simp

theorem mul (d n m : RegNum) (mode : SignMode) :
    Statement (.mul d n m mode) := by
  apply mask_eq_of_bits
  intro j
  simp only [encode, Instr.row, BitVec.getLsbD_append]
  fin_cases j <;> simp

theorem div (d n m : RegNum) (mode : SignMode) (part : DivType) :
    Statement (.div d n m mode part) := by
  apply mask_eq_of_bits
  intro j
  simp only [encode, Instr.row, BitVec.getLsbD_append]
  fin_cases j <;> simp

theorem cpyb (d n : RegNum) (dbit : BitNum) (mode : CopyMode) (sbit : BitNum) :
    Statement (.cpyb d n dbit mode sbit) := by
  apply mask_eq_of_bits
  intro j
  simp only [encode, Instr.row, BitVec.getLsbD_append]
  fin_cases j <;> simp

theorem jmpd (addr30 : BitVec 30) :
    Statement (.jmpd addr30) := by
  apply mask_eq_of_bits
  intro j
  simp only [encode, Instr.row, BitVec.getLsbD_append]
  fin_cases j <;> simp

theorem jmpr (m : RegNum) :
    Statement (.jmpr m) := by
  apply mask_eq_of_bits
  intro j
  simp only [encode, Instr.row, BitVec.getLsbD_append]
  fin_cases j <;> simp

theorem jb (mode : JumpMode) (v : Bool) (bit : BitNum) (n : RegNum) (addr : BitVec 14) :
    Statement (.jb mode v bit n addr) := by
  apply mask_eq_of_bits
  intro j
  simp only [encode, Instr.row, BitVec.getLsbD_append]
  fin_cases j <;> simp

theorem push (n : RegNum) :
    Statement (.push n) := by
  apply mask_eq_of_bits
  intro j
  simp only [encode, Instr.row, BitVec.getLsbD_append]
  fin_cases j <;> simp

theorem pop (d : RegNum) :
    Statement (.pop d) := by
  apply mask_eq_of_bits
  intro j
  simp only [encode, Instr.row, BitVec.getLsbD_append]
  fin_cases j <;> simp

theorem call (addr30 : BitVec 30) :
    Statement (.call addr30) := by
  apply mask_eq_of_bits
  intro j
  simp only [encode, Instr.row, BitVec.getLsbD_append]
  fin_cases j <;> simp

theorem callr (m : RegNum) :
    Statement (.callr m) := by
  apply mask_eq_of_bits
  intro j
  simp only [encode, Instr.row, BitVec.getLsbD_append]
  fin_cases j <;> simp

theorem ret : Statement .ret := by unfold Statement; decide

theorem nop : Statement .nop := by unfold Statement; decide

end Sys2Proof.Laws.CanonicalForm
end

