-- ==== Sys2Proof/Laws/Rotate.lean ====
section
/-! SUPPORT. What the step-by-step loop of ROT computes, bit by bit (spec/41_logic_rotate.md R123, R124, R127). -/

namespace Sys2Proof.Machine

/-! ## One step -/

/-- One step left, bit by bit. -/
theorem rotShift_left_getLsbD (i : Bool) (v : Word) (j : Nat) (hj : j < 32) :
    (rotShift .left i v).getLsbD j = if j = 0 then i else v.getLsbD (j - 1) := by
  simp only [rotShift, BitVec.getLsbD_append, BitVec.getLsbD_ofBool, BitVec.getLsbD_extractLsb']
  by_cases h : j = 0
  · simp [h]
  · rw [if_neg (by omega), if_neg h, decide_eq_true (by omega : j - 1 < 31)]; simp

/-- One step right, bit by bit. -/
theorem rotShift_right_getLsbD (i : Bool) (v : Word) (j : Nat) (hj : j < 32) :
    (rotShift .right i v).getLsbD j = if j = 31 then i else v.getLsbD (j + 1) := by
  simp only [rotShift, BitVec.getLsbD_append, BitVec.getLsbD_ofBool, BitVec.getLsbD_extractLsb']
  by_cases h : j = 31
  · simp [h]
  · rw [if_pos (by omega), if_neg h, decide_eq_true (by omega : j < 31)]; simp [Nat.add_comm]

/-! ## The last output bit -/

/-- Going left, the last bit out after `k` steps is bit `32 - k`. -/
theorem rotLoop_out_left (mode : RotMode) : ∀ (k : Nat) (v : Word) (c : Bool) (out : Option Bool), k < 32 →
    (rotLoop .left mode k v c out).2 = if k = 0 then out else some (v.getLsbD (32 - k))
  | 0, _, _, _, _ => rfl
  | k + 1, v, c, out, hk => by
    rw [rotLoop, rotLoop_out_left mode k _ _ _ (by omega)]
    by_cases h : k = 0
    · simp [h, rotOutput]
    · rw [if_neg h, if_neg (by omega), rotShift_left_getLsbD _ _ _ (by omega), if_neg (by omega)]
      congr 2

/-- Going right, it is bit `k - 1`. -/
theorem rotLoop_out_right (mode : RotMode) : ∀ (k : Nat) (v : Word) (c : Bool) (out : Option Bool), k < 32 →
    (rotLoop .right mode k v c out).2 = if k = 0 then out else some (v.getLsbD (k - 1))
  | 0, _, _, _, _ => rfl
  | k + 1, v, c, out, hk => by
    rw [rotLoop, rotLoop_out_right mode k _ _ _ (by omega)]
    by_cases h : k = 0
    · simp [h, rotOutput]
    · rw [if_neg h, if_neg (by omega), rotShift_right_getLsbD _ _ _ (by omega), if_neg (by omega)]
      congr 2
      omega

/-! ## The value -/

/-- The bit that enters in step `i` (counted from 0), in terms of the value before the first step: in mode rot the bit
that leaves in the same step, in mode carry the carry and then the bit that left one step earlier (R124, R127 a). -/
def entered (dir : RotDir) (mode : RotMode) (v : Word) (c : Bool) (i : Nat) : Bool :=
  let leaves (i : Nat) : Bool := match dir with | .left => v.getLsbD (31 - i) | .right => v.getLsbD i
  match mode with
  | .rot => leaves i
  | .zero => false
  | .one => true
  | .carry => if i = 0 then c else leaves (i - 1)
  | .sign => v.getLsbD 31

/-- Every bit of the value after `k` steps left. -/
theorem rotLoop_left (mode : RotMode) (hm : mode ≠ .sign) :
    ∀ (k : Nat) (v : Word) (c : Bool) (out : Option Bool), k < 32 → ∀ j, j < 32 →
    (rotLoop .left mode k v c out).1.getLsbD j =
      if k ≤ j then v.getLsbD (j - k) else entered .left mode v c (k - 1 - j)
  | 0, v, c, out, _, j, _ => by simp [rotLoop]
  | k + 1, v, c, out, hk, j, hj => by
    rw [rotLoop, rotLoop_left mode hm k _ _ _ (by omega) j hj]
    by_cases h : k + 1 ≤ j
    · rw [if_pos (by omega), if_pos h, rotShift_left_getLsbD _ _ _ (by omega), if_neg (by omega)]
      congr 1
    · rw [if_neg h]
      by_cases h' : k = j
      · subst h'
        rw [if_pos (by omega), rotShift_left_getLsbD _ _ _ (by omega), if_pos (by omega)]
        cases mode <;> simp_all [rotInput, entered, rotOutput]
      · rw [if_neg (by omega)]
        cases mode <;> simp only [entered] <;> try rfl
        · rw [rotShift_left_getLsbD _ _ _ (by omega), if_neg (by omega)]
          congr 1; omega
        · by_cases hz : k - 1 - j = 0
          · rw [if_pos hz, if_neg (by omega)]
            simp only [rotOutput]; congr 1; omega
          · rw [if_neg hz, if_neg (by omega), rotShift_left_getLsbD _ _ _ (by omega), if_neg (by omega)]
            congr 1; omega
        · exact absurd rfl hm

/-- Every bit of the value after `k` steps right. -/
theorem rotLoop_right (mode : RotMode) :
    ∀ (k : Nat) (v : Word) (c : Bool) (out : Option Bool), k < 32 → ∀ j, j < 32 →
    (rotLoop .right mode k v c out).1.getLsbD j =
      if j + k < 32 then v.getLsbD (j + k) else entered .right mode v c (j + k - 32)
  | 0, v, c, out, _, j, h => by simp [rotLoop, h]
  | k + 1, v, c, out, hk, j, hj => by
    rw [rotLoop, rotLoop_right mode k _ _ _ (by omega) j hj]
    by_cases h : j + (k + 1) < 32
    · rw [if_pos (by omega), if_pos h, rotShift_right_getLsbD _ _ _ (by omega), if_neg (by omega)]
      congr 1
    · rw [if_neg h]
      by_cases h' : j + k < 32
      · rw [if_pos h', rotShift_right_getLsbD _ _ _ h', if_pos (by omega), show j + (k + 1) - 32 = 0 by omega]
        cases mode <;> simp [rotInput, entered, rotOutput]
      · rw [if_neg h']
        cases mode <;> simp only [entered] <;> try rfl
        · rw [rotShift_right_getLsbD _ _ _ (by omega), if_neg (by omega)]
          congr 1; omega
        · by_cases hz : j + k - 32 = 0
          · rw [if_pos hz, if_neg (by omega)]
            simp only [rotOutput]; congr 1; omega
          · rw [if_neg hz, if_neg (by omega), rotShift_right_getLsbD _ _ _ (by omega), if_neg (by omega)]
            congr 1; omega
        · rw [rotShift_right_getLsbD _ _ _ (by omega), if_pos rfl]; rfl

end Sys2Proof.Machine
end

