-- ==== Sys2Proof/Tests/Slice0.lean ====
section
/-! SUPPORT. Tests of single steps, of the decoding of printed words and of what WellFormed refuses, and for every
statement with hypotheses a state and operands that meet them. Expected values are the manual's, as
spec/95_test_vectors.md transcribes them, unless a comment says otherwise. -/

namespace Sys2Proof.Tests

open Sys2Proof.Machine Sys2Proof.Claims

/-! ## Helpers -/

/-- The state after reset with R00 = 0x100, the listed registers and bytes, and the word `w` at 0x100. -/
def prepared (w : Word) (rs : List (RegNum × Word)) (ms : List (Nat × Byte)) : State :=
  let s := rs.foldl (fun s r => s.writeReg r.1 r.2) (State.reset.writeReg 0 0x100)
  { s with mem := (ms.foldl (fun m c => m.write c.1 c.2) s.mem).write32 0x100 w }

/-- The step answers a next state of which `f` holds. -/
def stepsTo (s : State) (f : State → Bool) : Bool :=
  match step s with
  | .next t => f t
  | _ => false

/-- Z, P, S8, S16, S32, C8, C16, C32, O8, O16, O32, in the order of spec/95_test_vectors.md. -/
def flagBits (t : State) : List Bool :=
  [Flag.z, .p, .s8, .s16, .s32, .c8, .c16, .c32, .o8, .o16, .o32].map t.flag

/-! ## WellFormed -/

theorem test_wellFormed_absent_register : (Instr.and 3 8 1).registersBelow 8 = false := by decide
theorem test_wellFormed_step_is_no_register : (Instr.rot 1 2 31 .left .zero).wellFormedFor 8 = true := by decide
theorem test_wellFormed_loadm_R00 : (Instr.loadm 0 1 .w32).wellFormed = false := by decide
theorem test_wellFormed_rot_sign_left : (Instr.rot 3 4 1 .left .sign).wellFormed = false := by decide
theorem test_wellFormed_rot_sign_right : (Instr.rot 3 4 1 .right .sign).wellFormed = true := by decide

/-! ## Decoding the printed words (spec/95_test_vectors.md section 1.1) -/

/-- The decoder reads the instruction from the word. -/
def reads (w : Word) (i : Instr) : Bool :=
  match decodeWord w with
  | .ok j => i == j
  | .error _ => false

theorem test_decode_LOADd :
    reads 0xFC100812 (.loadd 2 0x0102 .high) && reads 0xFC101820 (.loadd 2 0x0304 .low) &&
    reads 0xFC180816 (.loadd 3 0x0102 .unsigned) && reads 0xFC27FFFC (.loadd 4 0xFFFF .signed) := by decide
theorem test_decode_LOADr :
    reads 0xFE10C000 (.loadr 2 3 .u8) && reads 0xFE10C100 (.loadr 2 3 .s8) &&
    reads 0xFE190080 (.loadr 3 4 .w32) := by decide
theorem test_decode_LOADm :
    reads 0xFD100600 (.loadm 2 3 .u8) && reads 0xFD100700 (.loadm 2 3 .s8) &&
    reads 0xFD180880 (.loadm 3 4 .w32) := by decide
theorem test_decode_STORE :
    reads 0xEC00C400 (.store 3 2 .b8) && reads 0xEC010700 (.store 4 3 .b32) := by decide
theorem test_decode_logic :
    reads 0xF110C800 (.and 2 3 4) && reads 0xF210C800 (.or 2 3 4) && reads 0xF310C800 (.xor 2 3 4) := by decide
theorem test_decode_ROT :
    reads 0xF410C440 (.rot 2 3 2 .left .zero) && reads 0xF410C300 (.rot 2 3 1 .right .rot) := by decide
theorem test_decode_ADDr :
    reads 0x8010C800 (.addr 2 3 4 .add) && reads 0x8010C900 (.addr 2 3 4 .sub) &&
    reads 0x8010C980 (.addr 2 3 4 .cmp) := by decide
theorem test_decode_ADDd :
    reads 0xA010D234 (.addd 2 3 0x1234) && reads 0xA310FFFE (.addd 2 3 0xFFFE) := by decide
theorem test_decode_MUL_DIV :
    reads 0xF810C900 (.mul 2 3 4 .unsigned) && reads 0xF910C960 (.div 2 3 4 .unsigned .normal) &&
    reads 0xF910C840 (.div 2 3 4 .signed .result) && reads 0xF910C920 (.div 2 3 4 .unsigned .rest) := by decide
theorem test_decode_CPYB :
    reads 0xE010D006 (.cpyb 2 3 8 .clear 6) && reads 0xE010D106 (.cpyb 2 3 8 .keep 6) := by decide
theorem test_decode_jumps :
    reads 0x048D159E (.jmpd 0x048D159E) && reads 0xE8000400 (.jmpr 2) &&
    reads 0xC1188005 (.jb .bit true 3 2 5) && reads 0xC428BFA8 (.jb .plusZ false 5 2 0x3FA8) := by decide
theorem test_decode_stack :
    reads 0xE407C300 (.push 31) && reads 0xE5F80280 (.pop 31) && reads 0x448D159E (.call 0x048D159E) &&
    reads 0xE9003E00 (.callr 31) && reads 0xE5000400 .ret && reads 0xFF000000 .nop := by decide

/-- Words written out from the fields of R73 to R81, for mode values no printed example has. -/
theorem test_decode_other_modes :
    reads 0b11111110_00010_00011_00000_101_000000 (.loadr 2 3 .s16) &&
    reads 0b11101100_00000_00011_00010_01_0000000 (.store 3 2 .b16) &&
    reads 0b11110100_00010_00011_11111_1_101_00000 (.rot 2 3 31 .right .sign) &&
    reads 0b10000000_00010_00011_00100_101_000000 (.addr 2 3 4 .subc) &&
    reads 0b110_0_111_1_00000_00010_00000000000001 (.jb .le true 0 2 1) := by decide

/-- R82, R83: no instruction. -/
theorem test_decode_refuses :
    (match decodeWord 0x81000000 with | .error .unassignedCode => true | _ => false) &&
    (match decodeWord 0xFB000000 with | .error .unassignedCode => true | _ => false) &&
    (match decodeWord 0xEC000180 with | .error .unassignedMode => true | _ => false) := by decide

/-- The host's numbering of an instruction's bits (spec/opcode_table.json). -/
theorem test_decodeTableWord : decodeTableWord 32 0xE407C300 = some (.push 31) := by decide

/-! ## The assembler layer (spec/45_aliases.md) -/

theorem test_assemble_loads :
    AsmLine.assemble (.loadds 31 0x8000) = some 0xFCFC0004 ∧
    AsmLine.assemble (.loadmCast 31 .char 30) = some 0xFDF83D00 := by decide

/-- Lines of spec/30_encoding.md R87 and spec/45_aliases.md R204, R234, R235, in the spacing of log entry 36. -/
theorem test_text :
    (AsmLine.loadr 2 3 (some .u8)).text = "LOADr R02, R03, 8u" ∧
    (AsmLine.loadmCast 31 .char 30).text = "LOADm R31, (char) &R30" ∧
    (AsmLine.jb none 30 0 true 0x1000).text = "JB R30, 0, 1, +0x1000" ∧
    (AsmLine.jcond .z 0x1000).text = "JZ +0x1000" ∧ AsmLine.ret.text = "RET" := by decide

/-! ## One step of each instruction -/

/-- The flags of a ROT beside the free ones (spec/95_test_vectors.md section 2.6): `ROT R05, R06, 2, left, zero`. -/
theorem test_step_ROT_flags (t : State)
    (h : exec (.rot 5 6 2 .left .zero) (prepared 0 [(6, 0xC0000001)] []) = .next t) :
    t.flag .c32 = true ∧ t.flag .z = false ∧ t.readReg 5 = 4 := by
  simp only [exec, execRot, reduceCtorEq, false_and, if_false, Host.Outcome.next.injEq] at h
  subst h
  refine ⟨?_, ?_, rfl⟩ <;>
    rw [State.writeResult, flag_writeReg_other _ _ (by decide),
      show (rotLoop .left .zero (2 : Fin 32).val ((prepared 0 [(6, 0xC0000001)] []).readReg 6)
        ((prepared 0 [(6, 0xC0000001)] []).flag .c32) none) = (4, some true) from by decide] <;>
    simp [State.rotCarry, flag_setFlag, flag_drawFlags, flag_flagsResult, auxShiftFlags]

/-- The host's placing of an instruction, from reset. -/
theorem test_withFetchWord : stepsTo (State.reset.withFetchWord 32 0xFF000000) (fun t => t.pc == 4) := by decide

theorem test_step_LOADd_signed :
    stepsTo (prepared 0xFC27FFFC [] []) (fun t => t.readReg 4 == 0xFFFFFFFF && t.pc == 0x104) := by decide
theorem test_step_LOADd_high_keeps_low :
    stepsTo (prepared 0xFCFC0002 [(31, 0x12345678)] []) (fun t => t.readReg 31 == 0x80005678) := by decide
theorem test_step_LOADr_16s :
    stepsTo (prepared 0xFE298140 [(6, 0xFFFF8001)] []) (fun t => t.readReg 5 == 0xFFFF8001) := by decide
theorem test_step_LOADr_R00_is_next_address :
    stepsTo (prepared 0xFE280080 [] []) (fun t => t.readReg 5 == 0x104) := by decide
theorem test_step_LOADm_16u :
    stepsTo (prepared 0xFD280C40 [(6, 0x1000)] [(0x1000, 0x80), (0x1001, 1), (0x1002, 0xFF), (0x1003, 0x7F)])
      (fun t => t.readReg 5 == 0x8001) := by decide
theorem test_step_LOADm_32_misaligned :
    stepsTo (prepared 0xFD280C80 [(6, 0x1001)] [(0x1001, 1), (0x1002, 0xFF), (0x1003, 0x7F), (0x1004, 0x55)])
      (fun t => t.readReg 5 == 0x01FF7F55) := by decide
theorem test_step_LOADm_R00_refused :
    step (prepared 0xFD000C80 [(6, 0x1000)] []) = .refused .loadmIntoR00 := rfl
theorem test_step_STORE_16 :
    stepsTo (prepared 0xEC018E80 [(6, 0xAABBCCDD), (7, 0x2000)] [(0x2002, 0xEE)])
      (fun t => t.mem.read 0x2000 == 0xCC && t.mem.read 0x2001 == 0xDD && t.mem.read 0x2002 == 0xEE) := by decide

/-- spec/20_memory.md R51: addresses are modulo 2^32. -/
theorem test_step_STORE_32_wraps :
    stepsTo (prepared 0xEC018F00 [(6, 0xAABBCCDD), (7, 0xFFFFFFFE)] [])
      (fun t => t.mem.read 0xFFFFFFFF == 0xBB && t.mem.read 0 == 0xCC) := by decide

theorem test_step_AND : stepsTo (prepared 0xF1298E00 [(6, 0xFF00FF00), (7, 0x0FF00FF0)] [])
    (fun t => t.readReg 5 == 0x0F000F00) := by decide
theorem test_step_OR : stepsTo (prepared 0xF2298E00 [(6, 0xFF00FF00), (7, 0x0FF00FF0)] [])
    (fun t => t.readReg 5 == 0xFFF0FFF0) := by decide
theorem test_step_XOR_itself : stepsTo (prepared 0xF3294A00 [(5, 0x12345678)] [])
    (fun t => t.readReg 5 == 0) := by decide
theorem test_step_ROT_right_one : stepsTo (prepared 0xF4298960 [(6, 0x10), (2, 0x200)] [])
    (fun t => t.readReg 5 == 0xF0000001) := by decide
theorem test_step_ROT_right_carry : stepsTo (prepared 0xF4298380 [(6, 2), (2, 0x200)] [])
    (fun t => t.readReg 5 == 0x80000001) := by decide
theorem test_step_ADDr_subtract_borrows :
    stepsTo (prepared 0x80298F00 [(6, 0x80000000), (7, 1)] []) (fun t => t.readReg 5 == 0x7FFFFFFF &&
      flagBits t == [false, false, true, true, false, true, true, false, false, false, true]) := by decide
theorem test_step_ADDr_compare_writes_no_register :
    stepsTo (prepared 0x80118F80 [(5, 0x11111111), (6, 0x80000000), (7, 0x7FFFFFFF)] [])
      (fun t => t.readReg 5 == 0x11111111 &&
        flagBits t == [false, false, false, false, false, true, true, false, false, false, true]) := by decide
theorem test_step_ADDd_negative :
    stepsTo (prepared 0xA329BFF0 [(6, 0x10)] []) (fun t => t.readReg 5 == 0 &&
      flagBits t == [true, true, false, false, false, true, true, true, false, false, false]) := by decide
theorem test_step_MUL_signed : stepsTo (prepared 0xF8298E00 [(6, 0xFFFFFFFD), (7, 5)] [])
    (fun t => t.readReg 5 == 0xFFFFFFF1) := by decide
theorem test_step_DIV_normal : stepsTo (prepared 0xF9298F60 [(6, 100), (7, 7)] [])
    (fun t => t.readReg 5 == 0x0002000E) := by decide
theorem test_step_DIV_signed_truncates : stepsTo (prepared 0xF9298E60 [(6, 7), (7, 0xFFFFFFFE)] [])
    (fun t => t.readReg 5 == 0x0001FFFD) := by decide
theorem test_step_CPYB_keep : stepsTo (prepared 0xE0298907 [(5, 0xFFFFFFFF), (2, 0x200)] [])
    (fun t => t.readReg 5 == 0xFFFFFFEF) := by decide
theorem test_step_CPYB_clear : stepsTo (prepared 0xE029401F [(5, 0x80000000)] [])
    (fun t => t.readReg 5 == 1) := by decide
theorem test_step_JMPd : stepsTo (prepared 0x048D159E [] []) (fun t => t.pc == 0x12345678) := by decide
theorem test_step_JMPr_drops_low_bits :
    stepsTo (prepared 0xE8000600 [(3, 0x12345677)] []) (fun t => t.pc == 0x12345674) := by decide
theorem test_step_JB_backward_wraps : stepsTo (prepared 0xC1F96000 [(5, 0x80000000)] [])
    (fun t => t.pc == 0xFFFF8104) := by decide
theorem test_step_JB_not_taken : stepsTo (prepared 0xC6014004 [(2, 1)] []) (fun t => t.pc == 0x104) := by decide
theorem test_step_PUSH : stepsTo (prepared 0xE4014300 [(1, 0x400), (5, 0x11223344), (2, 0x7FF)] [])
    (fun t => t.readReg 1 == 0x404 && t.mem.read 0x400 == 0x11 && t.mem.read 0x403 == 0x44 &&
      t.readReg 2 == 0x7FF) := by decide
theorem test_step_POP_R01 : stepsTo (prepared 0xE5080280 [(1, 0x404)] [(0x402, 0x12), (0x403, 0x34)])
    (fun t => t.readReg 1 == 0x1234) := by decide
theorem test_step_POP_R02 : stepsTo (prepared 0xE5100280 [(1, 0x408)]
    [(0x404, 0x7F), (0x405, 0xFF), (0x406, 0xFF), (0x407, 0xFF)])
    (fun t => t.readReg 1 == 0x404 && t.readReg 2 == 0x7FF) := by decide
theorem test_step_CALL : stepsTo (prepared 0x40000800 [(1, 0x400)] [])
    (fun t => t.pc == 0x2000 && t.readReg 1 == 0x404 && t.mem.read32 0x400 == 0x104) := by decide
theorem test_step_CALLr_R01 : stepsTo (prepared 0xE9000200 [(1, 0x400)] [])
    (fun t => t.pc == 0x400 && t.readReg 1 == 0x404) := by decide
theorem test_step_RET : stepsTo (prepared 0xE5000400 [(1, 0x404)] [(0x402, 0x12), (0x403, 0x36)])
    (fun t => t.pc == 0x1234 && t.readReg 1 == 0x400) := by decide
theorem test_step_NOP : stepsTo (prepared 0xFF000000 [(2, 0x7FF)] [])
    (fun t => t.pc == 0x104 && t.readReg 2 == 0x7FF) := by decide

/-! ## MEMMAP (spec/20_memory.md R58) -/

/-- A system with memory at 0 to 0xFFF alone; LOADm R05, &R06, 32 at 0x100. -/
def smallSystem (a : Word) : State := { prepared 0xFD280C80 [(6, a)] [(0xFFF, 0x55)] with map := [⟨0, 0x1000⟩] }

theorem test_map_last_bytes : stepsTo (smallSystem 0xFFC) (fun t => t.readReg 5 == 0x55) := by decide
theorem test_map_one_byte_missing : step (smallSystem 0xFFD) = .fault (.noMemory 0xFFD) := rfl

/-! ## States and operands that meet the statements' hypotheses -/

/-- Some registers, the stack at 0x400 and C32 set; the instruction word is that of NOP. -/
def sample : State := prepared 0xFF000000 [(1, 0x400), (2, 0x200), (5, 7), (6, 0x80000000), (7, 0x12345678)] []

theorem witness_UnassignedCodesRefused :
    decodeWord 0x81000000 = .error .unassignedCode ∧ decodeWord 0x9F000000 = .error .unassignedCode ∧
    decodeWord 0xE1000000 = .error .unassignedCode ∧ decodeWord 0xE4000200 = .error .unassignedCode ∧
    decodeWord 0xE5000000 = .error .unassignedCode := ⟨rfl, rfl, rfl, rfl, rfl⟩
theorem witness_UnassignedModesRefused :
    decodeWord 0xFE0000C0 = .error .unassignedMode ∧ decodeWord 0xEC000180 = .error .unassignedMode ∧
    decodeWord 0xF4000020 = .error .unassignedMode ∧ decodeWord 0x800001C0 = .error .unassignedMode ∧
    decodeWord 0xF8000080 = .error .unassignedMode ∧ decodeWord 0xF9000000 = .error .unassignedMode ∧
    decodeWord 0xE0000180 = .error .unassignedMode ∧ decodeWord 0xC2000000 = .error .unassignedMode :=
  ⟨rfl, rfl, rfl, rfl, rfl, rfl, rfl, rfl⟩
theorem witness_DecodedWordDiffersInFillerOnly : decodeWord 0xFF123456 = .ok .nop := rfl
theorem witness_JumpAndCallFormat :
    (0x3FFFFFFF : Word).extractLsb' 30 2 = 0b00#2 ∧ (0x7FFFFFFF : Word).extractLsb' 30 2 = 0b01#2 := by decide
/-- The present bytes the statements ask for: the fetch, the stack slot above and below R01, and R07's address. -/
theorem witness_present :
    Present sample sample.pc 4 ∧ Present sample (sample.readReg 1) 4 ∧ Present sample (sample.readReg 1 - 4) 4 ∧
    Present sample (sample.readReg 7) 4 := by
  simp only [Present]
  decide
theorem witness_AccessPresent :
    AccessPresent sample (.push 5) ∧ AccessPresent sample (.pop 5) ∧ AccessPresent sample (.call 0) ∧
    AccessPresent sample (.callr 7) ∧ AccessPresent sample .ret ∧ AccessPresent sample (.store 5 7 .b32) ∧
    AccessPresent sample (.loadm 5 7 .w32) := by
  obtain ⟨-, hp, hq, hm⟩ := witness_present
  refine ⟨?_, ?_, ?_, ?_, ?_, ?_, ?_⟩ <;> rintro a n ⟨⟩ <;> assumption

/-- The first address beyond the map, a wide access that reaches it, and a fetch there. -/
theorem witness_AccessOutsideMapFaults :
    (Instr.loadm 5 6 .w32).wellFormed = true ∧ accessed (smallSystem 0xFFD) (.loadm 5 6 .w32) = some (0xFFD, 4) ∧
    ¬Present (smallSystem 0xFFD) 0xFFD 4 ∧ ¬Present ((smallSystem 0).writeReg 0 0x1000) 0x1000 4 := by
  refine ⟨rfl, rfl, ?_⟩
  simp only [Present]
  decide
theorem witness_StepFaultsOnlyOutsideMap :
    step (smallSystem 0x1000) = .fault (.noMemory 0x1000) ∧ step (smallSystem 0xFFD) = .fault (.noMemory 0xFFD) ∧
    step ((smallSystem 0).writeReg 0 0x1000) = .fault (.noMemory 0x1000) ∧ sample.map = wholeSpace :=
  ⟨rfl, rfl, rfl, rfl⟩
theorem witness_MapNeverChanges : ∃ t, step sample = .next t := ⟨_, rfl⟩
theorem witness_ResetMeetsInvariant :
    Memory.wf [(0, 1), (0xFFF, 2)] = true ∧ ∀ c ∈ ([(0, 1), (0xFFF, 2)] : Memory), MemMap.has [⟨0, 0x1000⟩] c.1 = true := by
  decide
theorem witness_StepRunsDecodedInstruction :
    decodeWord sample.fetchWord = .ok .nop ∧ exec .nop sample.advance = .next sample.advance ∧
    sample.stale = none := ⟨rfl, rfl, rfl⟩
theorem witness_StepRunsDecodedInstruction_refused :
    decodeWord (prepared 0xFD000C80 [] []).fetchWord = .ok (.loadm 0 6 .w32) ∧
    exec (.loadm 0 6 .w32) (prepared 0xFD000C80 [] []).advance = .refused .loadmIntoR00 := ⟨rfl, rfl⟩
theorem witness_StepRefusesOtherWords :
    decodeWord (prepared 0xF0000000 [] []).fetchWord = .error .unassignedCode := rfl
theorem witness_FetchSeesOldOrNewBytes_unchanged :
    ∃ t, step sample = .next t ∧ doubleWordAt sample t.pc = doubleWordAt t t.pc := ⟨_, rfl, rfl⟩

/-- STORE &R07, R06, 32 over the instruction after it. -/
theorem witness_FetchSeesOldOrNewBytes_changed :
    stepsTo (prepared 0xEC018F00 [(6, 0xFF000000), (7, 0x104)] []) (fun t => t.stale == some 0) := by decide
theorem witness_StepKeepsInvariant : sample.Inv ∧ ∃ t, step sample = .next t :=
  ⟨⟨by decide, by decide, by decide⟩, _, rfl⟩
theorem witness_CompletesUnlessForbidden :
    (Instr.loadm 1 0 .w32).wellFormed = true ∧ (Instr.loadm 0 0 .w32).wellFormed = false ∧
    (Instr.rot 3 4 1 .left .sign).wellFormed = false := by decide
theorem witness_InterruptEnableChangesOnlyThroughR02 :
    (∃ t, exec (.and 3 5 6) sample = .next t) ∧ destination (.and 3 5 6) ≠ some 2 := ⟨⟨_, rfl⟩, by decide⟩
theorem witness_OnlyNamedRegistersChange : ∃ t, exec (.pop 3) sample = .next t := ⟨_, rfl⟩
theorem witness_OnlyAddressedBytesChange : ∃ t, exec (.store 6 7 .b32) sample = .next t := ⟨_, rfl⟩
theorem witness_NoImpactInstructionsKeepR02 :
    leavesFlags (.pop 3) = true ∧ ∃ t, exec (.pop 3) sample = .next t := ⟨rfl, _, rfl⟩
theorem witness_CarrySurvivesLoadsAndLogic :
    leavesCarry (.xor 3 5 6) = true ∧ ∃ t, exec (.xor 3 5 6) sample = .next t := ⟨by decide, _, rfl⟩
theorem witness_LoadmReadsBigEndian : (1 : RegNum) ≠ 0 ∧ AccessPresent sample (.loadm 1 7 .w32) :=
  ⟨by decide, witness_AccessPresent.2.2.2.2.2.2⟩
theorem witness_StoreWritesAddressedBytes :
    (0xEC000180 : Word).extractLsb' 24 8 = 0xEC#8 ∧ (0xEC000180 : Word).extractLsb' 7 2 = 0b11#2 := by decide
/-- The load executes where `step` would run it, on the state with R00 advanced. -/
theorem witness_LoadReadsBackStore :
    (1 : RegNum) ≠ 0 ∧ ∃ t, exec (.store 6 7 .b32) sample = .next t ∧ t.advance.map = t.map ∧
      t.advance.readReg 7 = sample.readReg 7 ∧ BytesKept (sample.readReg 7) 4 t t.advance :=
  ⟨by decide, _, rfl, rfl, rfl, fun _ _ => rfl⟩
theorem witness_LoadReadsBackStore_narrow :
    (∃ t, exec (.store 6 7 .b16) sample = .next t) ∧ ∃ t, exec (.store 6 7 .b8) sample = .next t :=
  ⟨⟨_, rfl⟩, _, rfl⟩
theorem witness_RotShiftsByStep :
    ¬(RotMode.sign = .sign ∧ RotDir.right = .left) ∧ RotMode.carry ≠ .rot ∧ (31 : Fin 32) ≠ 0 ∧
    (3 : RegNum) ≠ 2 := by decide
theorem witness_AddrAddsAndSubtracts : AddMode.subc ≠ .cmp ∧ (3 : RegNum) ≠ 2 := by decide
theorem witness_DivStoresQuotientAndRest :
    ¬noQuotient .signed (sample.readReg 6) (sample.readReg 5) ∧
    ¬noQuotient .unsigned 0x80000000 0xFFFFFFFF := by
  simp only [noQuotient]
  decide
theorem witness_DivWithoutQuotientCompletes :
    noQuotient .unsigned (sample.readReg 6) (sample.readReg 3) ∧ noQuotient .signed 0x80000000 0xFFFFFFFF := by
  simp only [noQuotient]
  decide
/-- The second ADDr executes where `step` would run it; R01 and R03 written, R05 to R08 read. -/
theorem witness_CarryChainAddsDoubleWords :
    ∃ t, exec (.addr 1 5 6 .add) sample = .next t ∧ t.advance.flag .c32 = t.flag .c32 ∧
      t.advance.readReg 1 = t.readReg 1 ∧ t.advance.readReg 7 = t.readReg 7 ∧ t.advance.readReg 8 = t.readReg 8 :=
  ⟨_, rfl, advance_flag _ _, advance_readReg_other _ (by decide), advance_readReg_other _ (by decide),
    advance_readReg_other _ (by decide)⟩
theorem witness_BorrowChainSubtractsDoubleWords :
    ∃ t, exec (.addr 1 5 6 .sub) sample = .next t ∧ t.advance.flag .c32 = t.flag .c32 ∧
      t.advance.readReg 1 = t.readReg 1 ∧ t.advance.readReg 7 = t.readReg 7 ∧ t.advance.readReg 8 = t.readReg 8 :=
  ⟨_, rfl, advance_flag _ _, advance_readReg_other _ (by decide), advance_readReg_other _ (by decide),
    advance_readReg_other _ (by decide)⟩
theorem witness_chain_registers :
    (1 : RegNum) ≠ 0 ∧ (1 : RegNum) ≠ 2 ∧ (3 : RegNum) ≠ 0 ∧ (3 : RegNum) ≠ 2 ∧ (1 : RegNum) ≠ 3 ∧
    (7 : RegNum) ∉ [(1 : RegNum), 2] ∧ (8 : RegNum) ∉ [(1 : RegNum), 2] := by decide
theorem witness_JmprJumpsToRegister : sample.pcAligned = true := by decide
theorem witness_JbJumpsWhenConditionHolds :
    sample.pcAligned = true ∧ JumpTaken sample .bit true 9 2 ∧ ¬JumpTaken sample .bit false 9 2 ∧
    JumpTaken sample .plusZ true 9 2 ∧ ¬JumpTaken sample .plusZ false 9 2 ∧
    JumpTaken sample .minusZ true 9 2 ∧ ¬JumpTaken sample .minusZ false 9 2 ∧
    JumpTaken sample .g true 9 2 ∧ ¬JumpTaken sample .g false 9 2 ∧
    JumpTaken sample .le true 9 2 ∧ ¬JumpTaken sample .le false 9 2 := by
  simp only [JumpTaken]
  decide
theorem witness_JbJumpsWhenConditionHolds_modes :
    (0xC2000000 : Word).extractLsb' 29 3 = 0b110#3 ∧ (0xC2000000 : Word).extractLsb' 25 3 = 0b001#3 := by decide
theorem witness_ConditionalJumpsDecideComparison :
    (∃ t, exec (.addr 3 5 6 .sub) sample = .next t ∧ t.advance.readReg 2 = t.readReg 2) ∧
    (∃ t, exec (.addr 2 5 6 .cmp) sample = .next t ∧ t.advance.readReg 2 = t.readReg 2) ∧
    ComparesTo .sg (sample.readReg 5) (sample.readReg 6) ∧ ¬ComparesTo .g (sample.readReg 5) (sample.readReg 6) := by
  refine ⟨⟨_, rfl, advance_readReg_other _ (by decide)⟩, ⟨_, rfl, advance_readReg_other _ (by decide)⟩, ?_⟩
  simp only [ComparesTo]
  decide
theorem witness_PopUndoesPush :
    ∃ t, exec (.push 7) sample = .next t ∧ t.advance.map = t.map ∧ t.advance.readReg 1 = t.readReg 1 ∧
      BytesKept (sample.readReg 1) 4 t t.advance ∧ MemKept t t.advance :=
  ⟨_, rfl, rfl, rfl, fun _ _ => rfl, fun _ _ => rfl⟩
theorem witness_PopUndoesPush_registers : ∃ t, exec (.push 7) sample = .next t ∧ RegsKept [0] t t.advance :=
  ⟨_, rfl, fun _ hq => advance_readReg_other _ fun e => hq (e ▸ List.mem_cons_self)⟩
theorem witness_RetReturnsFromCall :
    (∃ t, exec (.call 0x2000) sample = .next t ∧ t.advance.map = t.map ∧ t.advance.readReg 1 = t.readReg 1 ∧
      BytesKept (sample.readReg 1) 4 t t.advance) ∧
    ∃ t, exec (.callr 7) sample = .next t := ⟨⟨_, rfl, rfl, rfl, fun _ _ => rfl⟩, _, rfl⟩

/-- JMPd 0x100 at 0x100, and JB bit, R02, 9, 1, -4 with C32 set. -/
theorem witness_SelfJumpMakesNoProgress :
    (prepared 0x00000040 [] []).pcAligned = true ∧ (prepared 0x00000040 [] []).stale = none ∧
    (prepared 0x00000040 [] []).selfJump = true ∧ (prepared 0xC148BFFF [(2, 0x200)] []).selfJump = true := by
  decide

/-- With no memory at all R00 = 0 reads as JMPd 0, but there is no instruction there: the run goes on into the fault. -/
theorem witness_SelfJumpMakesNoProgress_unmapped :
    ¬Present { State.reset with map := [] } 0 4 ∧ { State.reset with map := [] }.selfJump = false ∧
    runUntil .selfJump 1 0 { State.reset with map := [] } = .fault (.noMemory 0) := by
  refine ⟨?_, by decide, rfl⟩
  simp only [Present]
  decide

end Sys2Proof.Tests
end

/-! ## The formats of JMPd and CALL (spec/30_encoding.md R77) -/

namespace Sys2Proof

/-! ### The decoder under the model's parameters (R4, R86) -/

/-- R4: with all 32 registers implemented no 5-bit field names an absent one. -/
@[simp] theorem registersBelow_nregs (i : Instr) : i.registersBelow Config.nregs = true :=
  List.all_eq_true.mpr fun r _ => decide_eq_true r.isLt

/-- R86: the policy `ignore` accepts every filler. -/
@[simp] theorem fillerAccepted_fillerPolicy (w : Word) (i : Instr) : fillerAccepted fillerPolicy w i = true := rfl

/-- Neither the filler policy nor the register count of the machine modelled refuses a word. -/
theorem decodeWord_eq_decodeFields (w : Word) : decodeWord w = decodeFields w := by
  rw [decodeWord, decodeUnder]
  cases decodeFields w with
  | error e => rfl
  | ok i => simp

/-- R72, R77: bits 31:30 are looked at first, and 00 is JMPd. -/
theorem decodeWord_of_code_00 {w : Word} (h : w.extractLsb' 30 2 = 0b00#2) :
    decodeWord w = .ok (.jmpd (w.extractLsb' 0 30)) := by
  rw [decodeWord_eq_decodeFields, decodeFields, if_pos h]

/-- R72, R77: the code 01 is CALL. -/
theorem decodeWord_of_code_01 {w : Word} (h : w.extractLsb' 30 2 = 0b01#2) :
    decodeWord w = .ok (.call (w.extractLsb' 0 30)) := by
  have hne : w.extractLsb' 30 2 ≠ 0b00#2 := by rw [h]; decide
  rw [decodeWord_eq_decodeFields, decodeFields, if_neg hne, if_pos h]

/-! ### The assembled words -/

/-- Bits 31:2 of a double word with two zero bits above them are the double word shifted right by 2. -/
theorem zeros_append_extractLsb'_two (v : Word) : 0b00#2 ++ v.extractLsb' 2 30 = v >>> 2 := by
  rw [BitVec.ushiftRight_eq_extractLsb'_of_lt (by decide), BitVec.cast_eq]

/-- A 2-bit code is placed at bits 31:30 by OR. -/
theorem code_append_eq_or (code : BitVec 2) (field : BitVec 30) :
    code ++ field = (code ++ 0#30) ||| (0b00#2 ++ field) := by
  rw [BitVec.or_append]; simp

theorem assemble_jmpd (target : Word) : AsmLine.assemble (.jmpd target) = some (target >>> 2) :=
  congrArg some (zeros_append_extractLsb'_two target)

theorem assemble_call (target : Word) : AsmLine.assemble (.call target) = some (0x40000000 ||| target >>> 2) := by
  refine congrArg some ?_
  calc 0b01#2 ++ target.extractLsb' 2 30
    _ = (0b01#2 ++ 0#30) ||| (0b00#2 ++ target.extractLsb' 2 30) := code_append_eq_or _ _
    _ = 0x40000000 ||| target >>> 2 := by rw [zeros_append_extractLsb'_two]; rfl

/-- Settles O6, from the decoder's first two branches and the word the assembler writes for a target. -/
theorem jumpAndCallFormat : Obligations.JumpAndCallFormat :=
  ⟨fun _ => decodeWord_of_code_00, fun _ => decodeWord_of_code_01, assemble_jmpd, assemble_call,
    assemble_jmpd _, assemble_call _⟩

end Sys2Proof

/-! ## JMPd and JMPr (spec/43_bit_and_jump.md R163, R165) -/

namespace Sys2Proof

open Sys2Proof.Machine Sys2Proof.Claims

/-! ### A register write as a whole -/

/-- A register write changes that register alone. -/
theorem frame_writeReg (s : State) (r : RegNum) (v : Word) : Frame [r] s (s.writeReg r v) :=
  ⟨fun _ hq => readReg_writeReg_other s v (List.ne_of_not_mem_cons hq), fun _ _ => rfl, rfl, rfl⟩

/-- Writing to a register what it stores already changes nothing. -/
theorem writeReg_of_storedIn_eq {s : State} {r : RegNum} {v : Word} (h : storedIn r v = s.regs[r.val]) :
    s.writeReg r v = s := by
  rw [State.writeReg, h, Vector.set_getElem_self]

/-! ### The two low bits of R00 (R24) -/

/-- A word with its two low bits zero is kept by the mask of R00. -/
theorem and_pcMask_of_low_bits_zero {v : Word} (h : v &&& ~~~pcMask = 0) : v &&& pcMask = v := by
  calc v &&& pcMask
    _ = (v &&& pcMask) ||| (v &&& ~~~pcMask) := by rw [h]; exact BitVec.or_zero.symm
    _ = v &&& (pcMask ||| ~~~pcMask) := BitVec.and_or_distrib_left.symm
    _ = v := by rw [BitVec.or_not_self, BitVec.and_allOnes]

/-- R24: where R00 is a multiple of 4, the mask of R00 keeps it. -/
theorem pc_and_pcMask {s : State} (h : s.pcAligned = true) : s.pc &&& pcMask = s.pc :=
  and_pcMask_of_low_bits_zero (beq_iff_eq.mp h)

/-- A 30-bit field with 00 below it is 4 times the field. -/
theorem toNat_absoluteTarget (addr30 : BitVec 30) : (absoluteTarget addr30).toNat = 4 * addr30.toNat := by
  calc (addr30 ++ 0b00#2).toNat
    _ = addr30.toNat <<< 2 ||| (0b00#2).toNat := BitVec.toNat_append addr30 0b00#2
    _ = addr30.toNat * 4 := by simp [Nat.shiftLeft_eq]
    _ = 4 * addr30.toNat := Nat.mul_comm ..

/-- R163: a target JMPd can carry has no low bits to drop. -/
theorem absoluteTarget_and_pcMask (addr30 : BitVec 30) :
    absoluteTarget addr30 &&& pcMask = absoluteTarget addr30 := by
  have hmask : pcMask = BitVec.allOnes 30 ++ 0b00#2 := by decide
  rw [absoluteTarget, hmask, BitVec.and_append, BitVec.and_allOnes, BitVec.and_self]

/-! ### The two jumps executed -/

theorem exec_jmpd (addr30 : BitVec 30) (s : State) :
    exec (.jmpd addr30) s = .next (s.writeReg pcReg (absoluteTarget addr30)) := rfl

theorem exec_jmpr (m : RegNum) (s : State) :
    exec (.jmpr m) s = .next (s.writeReg pcReg (s.readReg m)) := rfl

/-- R163: R00 holds the target JMPd carries. -/
theorem readReg_pc_of_jmpd (addr30 : BitVec 30) (s : State) :
    (s.writeReg pcReg (absoluteTarget addr30)).readReg pcReg = absoluteTarget addr30 := by
  rw [readReg_writeReg_same, storedIn_pc, absoluteTarget_and_pcMask]

/-- R165: JMPr to R00, which holds the address of the next instruction, has no effect. -/
theorem exec_jmpr_pc {s : State} (h : s.pcAligned = true) : exec (.jmpr pcReg) s = .next s := by
  have hstored : storedIn pcReg (s.readReg pcReg) = s.regs[pcReg.val] := pc_and_pcMask h
  rw [exec_jmpr, writeReg_of_storedIn_eq hstored]

/-! ### The two statements -/

/-- Settles O39: JMPr is one write to R00, which drops the two low bits. -/
theorem jmprJumpsToRegister : Obligations.JmprJumpsToRegister :=
  ⟨fun m s => ⟨_, exec_jmpr m s, readReg_writeReg_same s pcReg _, frame_writeReg s pcReg _⟩,
    fun _ => exec_jmpr_pc, fun _ => rfl, by decide⟩

/-- Settles O38: JMPd is one write to R00, of a multiple of 4. -/
theorem jmpdJumpsAbsolute : Obligations.JmpdJumpsAbsolute := by
  refine ⟨fun addr30 s => ⟨_, exec_jmpd addr30 s, ?target, frame_writeReg s pcReg _⟩,
    fun _ => rfl, fun _ => rfl, ?zeroWord, assemble_jmpd _⟩
  case target => exact (congrArg BitVec.toNat (readReg_pc_of_jmpd addr30 s)).trans (toNat_absoluteTarget addr30)
  case zeroWord => exact decodeWord_of_code_00 rfl

end Sys2Proof

/-! ## NOP (spec/44_stack_call_nop.md R185) -/

namespace Sys2Proof

open Sys2Proof.Machine

theorem exec_nop (s : State) : exec .nop s = .next s := rfl

theorem assemble_nop : AsmLine.assemble .nop = some 0xFF000000 := rfl

/-- R72: the 8-bit code FF is NOP. -/
theorem decodeWord_nop : decodeWord 0xFF000000 = .ok .nop := by
  rw [decodeWord_eq_decodeFields]
  decide

/-- Settles O47: NOP is executed as no change of the state, and its one word is a fixed number. -/
theorem nopDoesNothing : Obligations.NopDoesNothing :=
  ⟨exec_nop, assemble_nop, decodeWord_nop⟩

end Sys2Proof

/-! ## The decoder by instruction code (spec/30_encoding.md R72, R80 to R86) -/

namespace Sys2Proof

/-! ### The code in the upper bits -/

/-- A field inside a field is a field of the word. -/
theorem extractLsb'_extractLsb'_add (w : Word) {start len start' len' : Nat} (h : start' + len' ≤ len) :
    (w.extractLsb' start len).extractLsb' start' len' = w.extractLsb' (start + start') len' := by
  apply BitVec.eq_of_getLsbD_eq
  intro j hj
  simp only [BitVec.getLsbD_extractLsb', hj, show start' + j < len by omega, decide_true, Bool.true_and, Nat.add_assoc]

/-- The 8-bit code of a word (R80). -/
abbrev code8 (w : Word) : BitVec 8 := w.extractLsb' 24 8

theorem code8_top_two (w : Word) : (code8 w).extractLsb' 6 2 = w.extractLsb' 30 2 :=
  extractLsb'_extractLsb'_add w (by decide)

theorem code8_top_three (w : Word) : (code8 w).extractLsb' 5 3 = w.extractLsb' 29 3 :=
  extractLsb'_extractLsb'_add w (by decide)

/-- The 8-bit codes the spec lists, that of ADDr among them (R80). -/
def listedCodes : List (BitVec 8) :=
  [0x80#8, 0xE0#8, 0xE4#8, 0xE5#8, 0xE8#8, 0xE9#8, 0xEC#8, 0xF1#8, 0xF2#8, 0xF3#8, 0xF4#8, 0xF8#8, 0xF9#8, 0xFC#8,
    0xFD#8, 0xFE#8, 0xFF#8]

/-- A listed code is one of the seventeen. -/
theorem listedCodes_cases {c : BitVec 8} {P : Prop} (h : c ∈ listedCodes)
    (c80 : c = 0x80#8 → P) (cE0 : c = 0xE0#8 → P) (cE4 : c = 0xE4#8 → P) (cE5 : c = 0xE5#8 → P) (cE8 : c = 0xE8#8 → P)
    (cE9 : c = 0xE9#8 → P) (cEC : c = 0xEC#8 → P) (cF1 : c = 0xF1#8 → P) (cF2 : c = 0xF2#8 → P) (cF3 : c = 0xF3#8 → P)
    (cF4 : c = 0xF4#8 → P) (cF8 : c = 0xF8#8 → P) (cF9 : c = 0xF9#8 → P) (cFC : c = 0xFC#8 → P) (cFD : c = 0xFD#8 → P)
    (cFE : c = 0xFE#8 → P) (cFF : c = 0xFF#8 → P) : P := by
  simp only [listedCodes, List.mem_cons, List.not_mem_nil, or_false] at h
  rcases h with h | h | h | h | h | h | h | h | h | h | h | h | h | h | h | h | h
  exacts [c80 h, cE0 h, cE4 h, cE5 h, cE8 h, cE9 h, cEC h, cF1 h, cF2 h, cF3 h, cF4 h, cF8 h,
    cF9 h, cFC h, cFD h, cFE h, cFF h]

/-- The codes R82 names as unassigned. -/
def UnlistedCode (c : BitVec 8) : Prop :=
  0x81 ≤ c.toNat ∧ c.toNat ≤ 0x9F ∨
  c ∈ [0xE1#8, 0xE2#8, 0xE3#8, 0xE6#8, 0xE7#8, 0xEA#8, 0xEB#8, 0xED#8, 0xEE#8, 0xEF#8, 0xF0#8, 0xF5#8, 0xF6#8, 0xF7#8,
    0xFA#8, 0xFB#8]

/-- The codes that begin as those of JMPd, CALL, ADDd and JB do (R72). -/
def ShortCode (c : BitVec 8) : Prop :=
  c.extractLsb' 6 2 = 0b00#2 ∨ c.extractLsb' 6 2 = 0b01#2 ∨ c.extractLsb' 5 3 = 0b101#3 ∨ c.extractLsb' 5 3 = 0b110#3

/-- R72, R80, R82: every code is a short one, a listed one or an unassigned one. -/
theorem code_cases (c : BitVec 8) : ShortCode c ∨ c ∈ listedCodes ∨ UnlistedCode c := by
  revert c; unfold ShortCode UnlistedCode; decide

/-- A short code is none of the 8-bit codes, listed or not. -/
theorem ShortCode.not_listed {c : BitVec 8} : ShortCode c → c ∉ listedCodes ∧ ¬UnlistedCode c := by
  revert c; unfold ShortCode UnlistedCode; decide

theorem UnlistedCode.not_listed {c : BitVec 8} : UnlistedCode c → c ∉ listedCodes := by
  revert c; unfold UnlistedCode; decide

/-! ### What the decoder reads under each code -/

section Codes

variable {w : Word}

theorem decodeWord_of_code_101 (h : w.extractLsb' 29 3 = 0b101#3) :
    decodeWord w = .ok (.addd (regField w 19) (regField w 14) (w.extractLsb' 24 2 ++ w.extractLsb' 0 14)) := by
  have htop : w.extractLsb' 30 2 = 0b10#2 := by rw [← extractLsb'_extractLsb'_add w (by decide : 1 + 2 ≤ 3), h]; rfl
  simp [decodeWord_eq_decodeFields, decodeFields, h, htop]

theorem decodeWord_of_code_110 (h : w.extractLsb' 29 3 = 0b110#3) :
    decodeWord w = orUnassignedMode ((JumpMode.ofBits (w.extractLsb' 25 3)).map fun mode =>
      .jb mode (w.getLsbD 24) (regField w 19) (regField w 14) (w.extractLsb' 0 14)) := by
  have htop : w.extractLsb' 30 2 = 0b11#2 := by rw [← extractLsb'_extractLsb'_add w (by decide : 1 + 2 ≤ 3), h]; rfl
  simp [decodeWord_eq_decodeFields, decodeFields, h, htop]

theorem decodeWord_of_code_80 (h : code8 w = 0x80#8) :
    decodeWord w = orUnassignedMode ((AddMode.ofBits (w.extractLsb' 6 3)).map fun mode =>
      .addr (regField w 19) (regField w 14) (regField w 9) mode) := by
  have h2 := code8_top_two w
  have h3 := code8_top_three w
  rw [h] at h2 h3
  simp [decodeWord_eq_decodeFields, decodeFields, ← h2, ← h3, h]

/-- R72: a code with bits 31:29 set is looked up among the 8-bit codes. -/
theorem decodeWord_of_code_111 {c : BitVec 8} (h : code8 w = c) (hc : c.extractLsb' 5 3 = 0b111#3) :
    decodeWord w = decodeCode8 w := by
  have h3 : w.extractLsb' 29 3 = 0b111#3 := by rw [← code8_top_three, h, hc]
  have h2 : w.extractLsb' 30 2 = 0b11#2 := by rw [← extractLsb'_extractLsb'_add w (by decide : 1 + 2 ≤ 3), h3]; rfl
  simp [decodeWord_eq_decodeFields, decodeFields, h2, h3]

theorem decodeWord_of_code_E0 (h : code8 w = 0xE0#8) :
    decodeWord w = orUnassignedMode ((CopyMode.ofBits (w.extractLsb' 7 2)).map fun mode =>
      .cpyb (regField w 19) (regField w 14) (regField w 9) mode (regField w 0)) := by
  simp [decodeWord_of_code_111 h rfl, decodeCode8, h]

theorem decodeWord_of_code_E4 (h : code8 w = 0xE4#8) :
    decodeWord w =
      if w.extractLsb' 8 2 = 0b11#2 then .ok (.push (regField w 14)) else .error .unassignedCode := by
  simp [decodeWord_of_code_111 h rfl, decodeCode8, h]

theorem decodeWord_of_code_E5 (h : code8 w = 0xE5#8) :
    decodeWord w =
      if w.extractLsb' 9 1 = 1#1 ∧ w.extractLsb' 7 1 = 1#1 then .ok (.pop (regField w 19))
      else if w.extractLsb' 19 5 = 0#5 ∧ w.extractLsb' 10 1 = 1#1 then .ok .ret
      else .error .unassignedCode := by
  simp [decodeWord_of_code_111 h rfl, decodeCode8, h]

theorem decodeWord_of_code_E8 (h : code8 w = 0xE8#8) : decodeWord w = .ok (.jmpr (regField w 9)) := by
  simp [decodeWord_of_code_111 h rfl, decodeCode8, h]

theorem decodeWord_of_code_E9 (h : code8 w = 0xE9#8) : decodeWord w = .ok (.callr (regField w 9)) := by
  simp [decodeWord_of_code_111 h rfl, decodeCode8, h]

theorem decodeWord_of_code_EC (h : code8 w = 0xEC#8) :
    decodeWord w = orUnassignedMode ((StoreMode.ofBits (w.extractLsb' 7 2)).map fun mode =>
      .store (regField w 14) (regField w 9) mode) := by
  simp [decodeWord_of_code_111 h rfl, decodeCode8, h]

theorem decodeWord_of_code_F1 (h : code8 w = 0xF1#8) :
    decodeWord w = .ok (.and (regField w 19) (regField w 14) (regField w 9)) := by
  simp [decodeWord_of_code_111 h rfl, decodeCode8, h]

theorem decodeWord_of_code_F2 (h : code8 w = 0xF2#8) :
    decodeWord w = .ok (.or (regField w 19) (regField w 14) (regField w 9)) := by
  simp [decodeWord_of_code_111 h rfl, decodeCode8, h]

theorem decodeWord_of_code_F3 (h : code8 w = 0xF3#8) :
    decodeWord w = .ok (.xor (regField w 19) (regField w 14) (regField w 9)) := by
  simp [decodeWord_of_code_111 h rfl, decodeCode8, h]

theorem decodeWord_of_code_F4 (h : code8 w = 0xF4#8) :
    decodeWord w = orUnassignedMode ((RotMode.ofBits (w.extractLsb' 5 3)).map fun mode =>
      .rot (regField w 19) (regField w 14) (regField w 9) (RotDir.ofBits (w.extractLsb' 8 1)) mode) := by
  simp [decodeWord_of_code_111 h rfl, decodeCode8, h]

theorem decodeWord_of_code_F8 (h : code8 w = 0xF8#8) :
    decodeWord w = orUnassignedMode ((SignMode.ofBits (w.extractLsb' 7 2)).map fun mode =>
      .mul (regField w 19) (regField w 14) (regField w 9) mode) := by
  simp [decodeWord_of_code_111 h rfl, decodeCode8, h]

theorem decodeWord_of_code_F9 (h : code8 w = 0xF9#8) :
    decodeWord w = orUnassignedMode ((SignMode.ofBits (w.extractLsb' 7 2)).bind fun mode =>
      (DivType.ofBits (w.extractLsb' 5 2)).map fun part =>
        .div (regField w 19) (regField w 14) (regField w 9) mode part) := by
  simp [decodeWord_of_code_111 h rfl, decodeCode8, h]

theorem decodeWord_of_code_FC (h : code8 w = 0xFC#8) :
    decodeWord w = .ok (.loadd (regField w 19) (w.extractLsb' 3 16) (ImmMode.ofBits (w.extractLsb' 1 2))) := by
  simp [decodeWord_of_code_111 h rfl, decodeCode8, h]

theorem decodeWord_of_code_FD (h : code8 w = 0xFD#8) :
    decodeWord w = orUnassignedMode ((LoadMode.ofBits (w.extractLsb' 6 3)).map fun mode =>
      .loadm (regField w 19) (regField w 9) mode) := by
  simp [decodeWord_of_code_111 h rfl, decodeCode8, h]

theorem decodeWord_of_code_FE (h : code8 w = 0xFE#8) :
    decodeWord w = orUnassignedMode ((LoadMode.ofBits (w.extractLsb' 6 3)).map fun mode =>
      .loadr (regField w 19) (regField w 14) mode) := by
  simp [decodeWord_of_code_111 h rfl, decodeCode8, h]

theorem decodeWord_of_code_FF (h : code8 w = 0xFF#8) : decodeWord w = .ok .nop := by
  simp [decodeWord_of_code_111 h rfl, decodeCode8, h]

/-- R82: a word with an unassigned code is refused. -/
theorem decodeWord_of_unlistedCode (h : UnlistedCode (code8 w)) : decodeWord w = .error .unassignedCode := by
  have hlist := h.not_listed
  have hcode : (code8 w).extractLsb' 5 3 = 0b100#3 ∨ (code8 w).extractLsb' 5 3 = 0b111#3 := by
    revert h; generalize code8 w = c; revert c; unfold UnlistedCode; decide
  rcases hcode with hc | hc
  · have h3 : w.extractLsb' 29 3 = 0b100#3 := by rw [← code8_top_three, hc]
    have h2 : w.extractLsb' 30 2 = 0b10#2 := by rw [← extractLsb'_extractLsb'_add w (by decide : 1 + 2 ≤ 3), h3]; rfl
    have h80 : w.extractLsb' 24 8 ≠ 0x80#8 := fun e => hlist (by simp [listedCodes, code8, e])
    simp [decodeWord_eq_decodeFields, decodeFields, h2, h3, h80]
  · rw [decodeWord_of_code_111 rfl hc]
    simp only [listedCodes, code8, List.mem_cons, not_or] at hlist
    simp [decodeCode8, hlist]

end Codes

/-! ### Mode fields -/

@[simp] theorem orUnassignedMode_ok_iff {x : Option Instr} {i : Instr} : orUnassignedMode x = .ok i ↔ x = some i := by
  cases x <;> simp [orUnassignedMode]

@[simp] theorem orUnassignedMode_ne_unassignedCode (x : Option Instr) :
    orUnassignedMode x ≠ .error .unassignedCode := by
  cases x <;> simp [orUnassignedMode]

@[simp] theorem orUnassignedMode_unassignedMode_iff {x : Option Instr} :
    orUnassignedMode x = .error .unassignedMode ↔ x = none := by
  cases x <;> simp [orUnassignedMode]

@[simp] theorem LoadMode.ofBits_eq_none {b : BitVec 3} :
    LoadMode.ofBits b = none ↔ b ∈ [0b011#3, 0b110#3, 0b111#3] := by revert b; decide
@[simp] theorem StoreMode.ofBits_eq_none {b : BitVec 2} : StoreMode.ofBits b = none ↔ b = 0b11#2 := by
  revert b; decide
@[simp] theorem RotMode.ofBits_eq_none {b : BitVec 3} :
    RotMode.ofBits b = none ↔ b ∈ [0b001#3, 0b110#3, 0b111#3] := by revert b; decide
@[simp] theorem AddMode.ofBits_eq_none {b : BitVec 3} :
    AddMode.ofBits b = none ↔ b ∈ [0b010#3, 0b011#3, 0b111#3] := by revert b; decide
@[simp] theorem SignMode.ofBits_eq_none {b : BitVec 2} :
    SignMode.ofBits b = none ↔ b ∈ [0b01#2, 0b11#2] := by revert b; decide
@[simp] theorem DivType.ofBits_eq_none {b : BitVec 2} : DivType.ofBits b = none ↔ b = 0b00#2 := by
  revert b; decide
@[simp] theorem CopyMode.ofBits_eq_none {b : BitVec 2} :
    CopyMode.ofBits b = none ↔ b ∈ [0b01#2, 0b11#2] := by revert b; decide
@[simp] theorem JumpMode.ofBits_eq_none {b : BitVec 3} :
    JumpMode.ofBits b = none ↔ b ∈ [0b001#3, 0b100#3, 0b101#3] := by revert b; decide

end Sys2Proof

/-! ## The words that are no instruction (spec/30_encoding.md R82, R83) -/

namespace Sys2Proof

/-- The words R82 names: an unassigned code, or 0xE4 or 0xE5 without their constant ones. -/
def UnassignedCodeWord (w : Word) : Prop :=
  UnlistedCode (code8 w) ∨ code8 w = 0xE4#8 ∧ w.extractLsb' 8 2 ≠ 0b11#2 ∨
  code8 w = 0xE5#8 ∧ ¬(w.getLsbD 9 = true ∧ w.getLsbD 7 = true) ∧ ¬(w.extractLsb' 19 5 = 0#5 ∧ w.getLsbD 10 = true)

/-- The words R83 names: a listed instruction with an unlisted mode or type value. -/
def UnassignedModeWord (w : Word) : Prop :=
  code8 w ∈ [0xFE#8, 0xFD#8] ∧ w.extractLsb' 6 3 ∈ [0b011#3, 0b110#3, 0b111#3] ∨
  code8 w = 0xEC#8 ∧ w.extractLsb' 7 2 = 0b11#2 ∨
  code8 w = 0xF4#8 ∧ w.extractLsb' 5 3 ∈ [0b001#3, 0b110#3, 0b111#3] ∨
  code8 w = 0x80#8 ∧ w.extractLsb' 6 3 ∈ [0b010#3, 0b011#3, 0b111#3] ∨
  code8 w ∈ [0xF8#8, 0xF9#8] ∧ w.extractLsb' 7 2 ∈ [0b01#2, 0b11#2] ∨
  code8 w = 0xF9#8 ∧ w.extractLsb' 5 2 = 0b00#2 ∨
  code8 w = 0xE0#8 ∧ w.extractLsb' 7 2 ∈ [0b01#2, 0b11#2] ∨
  w.extractLsb' 29 3 = 0b110#3 ∧ w.extractLsb' 25 3 ∈ [0b001#3, 0b100#3, 0b101#3]

/-- A mode and a type field together are unlisted when one of them is. -/
theorem bind_map_eq_none {α β γ : Type} (x : Option α) (y : Option β) (f : α → β → γ) :
    (x.bind fun a => y.map (f a)) = none ↔ x = none ∨ y = none := by
  cases x <;> simp

section Refused

variable {w : Word}

/-- What the decoder reads from a short code: an instruction, or a JB with an unlisted mode. -/
theorem decodeWord_of_shortCode (h : ShortCode (code8 w)) :
    w.extractLsb' 29 3 ≠ 0b110#3 ∧ (∃ i, decodeWord w = .ok i) ∨ w.extractLsb' 29 3 = 0b110#3 := by
  rw [ShortCode, code8_top_two, code8_top_three] at h
  by_cases h6 : w.extractLsb' 29 3 = 0b110#3
  · exact .inr h6
  · rcases h with h | h | h | h
    · exact .inl ⟨h6, _, decodeWord_of_code_00 h⟩
    · exact .inl ⟨h6, _, decodeWord_of_code_01 h⟩
    · exact .inl ⟨h6, _, decodeWord_of_code_101 h⟩
    · exact absurd h h6

/-- Under a listed code R82 speaks of the constant ones alone. -/
theorem unassignedCodeWord_of_listed (h : code8 w ∈ listedCodes) :
    UnassignedCodeWord w ↔ decodeWord w = .error .unassignedCode := by
  have hun : ¬UnlistedCode (code8 w) := fun hu => hu.not_listed h
  simp only [UnassignedCodeWord, hun, false_or]
  refine listedCodes_cases h ?c80 ?cE0 ?cE4 ?cE5 ?cE8 ?cE9 ?cEC ?cF1 ?cF2 ?cF3 ?cF4 ?cF8 ?cF9 ?cFC ?cFD ?cFE ?cFF
  all_goals intro h
  case cE4 =>
    rw [decodeWord_of_code_E4 h]; simp [h]
  case cE5 =>
    rw [decodeWord_of_code_E5 h]
    simp only [h, BitVec.getLsbD_eq_extractLsb', beq_iff_eq, true_and]
    split
    · simp [*]
    · split <;> simp [*]
  all_goals simp [h, decodeWord_of_code_80, decodeWord_of_code_E0, decodeWord_of_code_E8, decodeWord_of_code_E9,
    decodeWord_of_code_EC, decodeWord_of_code_F1, decodeWord_of_code_F2, decodeWord_of_code_F3, decodeWord_of_code_F4,
    decodeWord_of_code_F8, decodeWord_of_code_F9, decodeWord_of_code_FC, decodeWord_of_code_FD, decodeWord_of_code_FE,
    decodeWord_of_code_FF]

theorem unassignedCodeWord_iff (w : Word) : UnassignedCodeWord w ↔ decodeWord w = .error .unassignedCode := by
  rcases code_cases (code8 w) with h | h | h
  case inl =>
    have hne : decodeWord w ≠ .error .unassignedCode := by
      rcases decodeWord_of_shortCode h with ⟨-, i, hi⟩ | h6
      · simp [hi]
      · simp [decodeWord_of_code_110 h6]
    obtain ⟨hlist, hun⟩ := h.not_listed
    refine iff_of_false ?_ hne
    rintro (hu | ⟨hc, -⟩ | ⟨hc, -⟩)
    · exact hun hu
    · exact hlist (by simp [hc, listedCodes])
    · exact hlist (by simp [hc, listedCodes])
  case inr.inl => exact unassignedCodeWord_of_listed h
  case inr.inr => exact iff_of_true (.inl h) (decodeWord_of_unlistedCode h)

/-- A code that is no short one is not that of JB. -/
theorem not_code_110_of_not_shortCode (h : ¬ShortCode (code8 w)) : w.extractLsb' 29 3 ≠ 0b110#3 :=
  fun e => h (.inr (.inr (.inr ((code8_top_three w).trans e))))

/-- Under a listed code R83 speaks of the mode and type fields alone. -/
theorem unassignedModeWord_of_listed (h : code8 w ∈ listedCodes) :
    UnassignedModeWord w ↔ decodeWord w = .error .unassignedMode := by
  have hjb : w.extractLsb' 29 3 ≠ 0b110#3 := not_code_110_of_not_shortCode fun hs => hs.not_listed.1 h
  simp only [UnassignedModeWord, hjb, false_and, or_false]
  refine listedCodes_cases h ?c80 ?cE0 ?cE4 ?cE5 ?cE8 ?cE9 ?cEC ?cF1 ?cF2 ?cF3 ?cF4 ?cF8 ?cF9 ?cFC ?cFD ?cFE ?cFF
  all_goals intro h
  case cE4 =>
    rw [decodeWord_of_code_E4 h]; split <;> simp [h]
  case cE5 =>
    rw [decodeWord_of_code_E5 h]
    split
    · simp [h]
    · split <;> simp [h]
  case cF9 =>
    rw [decodeWord_of_code_F9 h, orUnassignedMode_unassignedMode_iff, bind_map_eq_none]; simp [h]
  all_goals simp [h, decodeWord_of_code_80, decodeWord_of_code_E0, decodeWord_of_code_E8, decodeWord_of_code_E9,
    decodeWord_of_code_EC, decodeWord_of_code_F1, decodeWord_of_code_F2, decodeWord_of_code_F3, decodeWord_of_code_F4,
    decodeWord_of_code_F8, decodeWord_of_code_FC, decodeWord_of_code_FD, decodeWord_of_code_FE,
    decodeWord_of_code_FF]

theorem unassignedModeWord_iff (w : Word) : UnassignedModeWord w ↔ decodeWord w = .error .unassignedMode := by
  rcases code_cases (code8 w) with h | h | h
  case inl =>
    have hlist := h.not_listed.1
    have hcode : ∀ c ∈ listedCodes, code8 w ≠ c := fun c hc e => hlist (e ▸ hc)
    simp only [listedCodes, List.forall_mem_cons] at hcode
    rcases decodeWord_of_shortCode h with ⟨h6, i, hi⟩ | h6
    · simp [UnassignedModeWord, hcode, h6, hi]
    · simp [UnassignedModeWord, hcode, h6, decodeWord_of_code_110 h6]
  case inr.inl => exact unassignedModeWord_of_listed h
  case inr.inr =>
    have hlist := h.not_listed
    have hcode : ∀ c ∈ listedCodes, code8 w ≠ c := fun c hc e => hlist (e ▸ hc)
    simp only [listedCodes, List.forall_mem_cons] at hcode
    have h6 : w.extractLsb' 29 3 ≠ 0b110#3 := not_code_110_of_not_shortCode fun hs => hs.not_listed.2 h
    simp [UnassignedModeWord, hcode, h6, decodeWord_of_unlistedCode h]

end Refused

/-- Settles O4, by the decoder's answer under each code. -/
theorem unassignedModesRefused : Obligations.UnassignedModesRefused := unassignedModeWord_iff

/-- Settles O3, by the decoder's answer under each code. -/
theorem unassignedCodesRefused : Obligations.UnassignedCodesRefused := by
  intro w
  rw [← unassignedCodeWord_iff, UnassignedCodeWord, UnlistedCode, or_assoc]

end Sys2Proof

/-! ## Encoded words as numbers, and decoding them again (spec/30_encoding.md R73 to R81) -/

namespace Sys2Proof

open Sys2Proof.Claims

/-! ### Fields of a word with the standard layout -/

theorem toNat_append_eq_add {m n : Nat} (x : BitVec m) (y : BitVec n) :
    (x ++ y).toNat = x.toNat * 2 ^ n + y.toNat := by
  rw [BitVec.toNat_append, ← Nat.shiftLeft_add_eq_or_of_lt y.isLt, Nat.shiftLeft_eq]

@[simp] theorem toNat_numBits (r : Fin 32) : (numBits r).toNat = r.val := rfl

/-- A field is known when its number is. -/
theorem extractLsb'_eq_of_toNat {w : Word} {start len : Nat} {v : BitVec len}
    (h : w.toNat / 2 ^ start % 2 ^ len = v.toNat) : w.extractLsb' start len = v := by
  apply BitVec.eq_of_toNat_eq
  rw [BitVec.extractLsb'_toNat, Nat.shiftRight_eq_div_pow, h]

/-- A register or bit number is known when its field's number is. -/
theorem regField_eq_of_toNat {w : Word} {lo : Nat} {r : Fin 32} (h : w.toNat / 2 ^ lo % 2 ^ 5 = r.val) :
    regField w lo = r :=
  congrArg BitVec.toFin (extractLsb'_eq_of_toNat (v := numBits r) h)

/-- `w` is the 8-bit code `c`, the three operand slots, and the 9 bits `low` below them (R71). -/
def HasFields (w : Word) (c : BitVec 8) (d n m : Fin 32) (low : BitVec 9) : Prop :=
  w.toNat = c.toNat * 2 ^ 24 + slots d n m + low.toNat

namespace HasFields

variable {w : Word} {c : BitVec 8} {d n m : Fin 32} {low : BitVec 9}

theorem code (h : HasFields w c d n m low) : code8 w = c := by
  simp only [HasFields, slots] at h
  exact extractLsb'_eq_of_toNat (by omega)

theorem regField_19 (h : HasFields w c d n m low) : regField w 19 = d := by
  simp only [HasFields, slots] at h
  exact regField_eq_of_toNat (by omega)

theorem regField_14 (h : HasFields w c d n m low) : regField w 14 = n := by
  simp only [HasFields, slots] at h
  exact regField_eq_of_toNat (by omega)

theorem regField_9 (h : HasFields w c d n m low) : regField w 9 = m := by
  simp only [HasFields, slots] at h
  exact regField_eq_of_toNat (by omega)

theorem low_bits (h : HasFields w c d n m low) : w.extractLsb' 0 9 = low := by
  simp only [HasFields, slots] at h
  exact extractLsb'_eq_of_toNat (by omega)

/-- The fields below the operand slots, mode and type fields among them. -/
theorem low_field (h : HasFields w c d n m low) {start len : Nat} (hlen : start + len ≤ 9) :
    w.extractLsb' start len = low.extractLsb' start len := by
  rw [← h.low_bits, extractLsb'_extractLsb'_add w hlen, Nat.zero_add]

end HasFields


/-- The fields of the instructions with the standard layout; the constant ones of PUSH, POP and RET reach into the
third slot (R73). -/
def layout : Instr → Option (BitVec 8 × Fin 32 × Fin 32 × Fin 32 × BitVec 9)
  | .loadr d n mode => some (0xFE#8, d, n, 0, mode.bits ++ 0#6)
  | .loadm d m mode => some (0xFD#8, d, 0, m, mode.bits ++ 0#6)
  | .store n m mode => some (0xEC#8, 0, n, m, mode.bits ++ 0#7)
  | .and d n m => some (0xF1#8, d, n, m, 0#9)
  | .or d n m => some (0xF2#8, d, n, m, 0#9)
  | .xor d n m => some (0xF3#8, d, n, m, 0#9)
  | .rot d n step dir mode => some (0xF4#8, d, n, step, dir.bits ++ mode.bits ++ 0#5)
  | .addr d n m mode => some (0x80#8, d, n, m, mode.bits ++ 0#6)
  | .mul d n m mode => some (0xF8#8, d, n, m, mode.bits ++ 0#7)
  | .div d n m mode part => some (0xF9#8, d, n, m, mode.bits ++ part.bits ++ 0#5)
  | .cpyb d n dbit mode sbit => some (0xE0#8, d, n, dbit, mode.bits ++ 0#2 ++ numBits sbit)
  | .jmpr m => some (0xE8#8, 0, 0, m, 0#9)
  | .callr m => some (0xE9#8, 0, 0, m, 0#9)
  | .push n => some (0xE4#8, 0, n, 1, 0x100#9)
  | .pop d => some (0xE5#8, d, 0, 1, 0x080#9)
  | .ret => some (0xE5#8, 0, 0, 2, 0#9)
  | .nop => some (0xFF#8, 0, 0, 0, 0#9)
  | .loadd .. | .addd .. | .jmpd .. | .call .. | .jb .. => none

/-- R71, R73 to R76: the encoder writes these fields. -/
theorem hasFields_encode {i : Instr} {c : BitVec 8} {d n m : Fin 32} {low : BitVec 9}
    (h : layout i = some (c, d, n, m, low)) : HasFields (encode i) c d n m low := by
  cases i
  case ret | nop => cases h; rfl
  case loadd | addd | jmpd | call | jb => cases h
  all_goals
    cases h
    simp only [HasFields, encode, slots, toNat_append_eq_add, toNat_numBits, BitVec.toNat_ofNat]
    omega

/-- R73 to R77, R81: the encoder's word is the number the spec's formats give. -/
theorem toNat_encode (i : Instr) : (encode i).toNat = printedWord i := by
  cases i with
  | loadr d n mode => rw [hasFields_encode rfl]; cases mode <;> simp [printedWord, LoadMode.bits] <;> omega
  | loadm d m mode => rw [hasFields_encode rfl]; cases mode <;> simp [printedWord, LoadMode.bits] <;> omega
  | store n m mode => rw [hasFields_encode rfl]; cases mode <;> simp [printedWord, StoreMode.bits] <;> omega
  | rot d n step dir mode =>
    rw [hasFields_encode rfl]
    cases dir <;> cases mode <;> simp [printedWord, RotDir.bits, RotMode.bits] <;> omega
  | addr d n m mode => rw [hasFields_encode rfl]; cases mode <;> simp [printedWord, AddMode.bits] <;> omega
  | mul d n m mode =>
    rw [hasFields_encode rfl]
    cases mode <;> simp [printedWord, SignMode.bits]
    omega
  | div d n m mode part =>
    rw [hasFields_encode rfl]
    cases mode <;> cases part <;> simp [printedWord, SignMode.bits, DivType.bits] <;> omega
  | cpyb d n dbit mode sbit =>
    rw [hasFields_encode rfl, toNat_append_eq_add, toNat_append_eq_add]
    cases mode <;> simp [printedWord, CopyMode.bits]
    omega
  | ret | nop => rfl
  | and | or | xor | jmpr | callr => rw [hasFields_encode rfl]; simp [printedWord]
  | push | pop => rw [hasFields_encode rfl]; simp [printedWord, slots]; omega
  | loadd d imm mode =>
    simp only [encode, toNat_append_eq_add, toNat_numBits]
    cases mode <;> simp [printedWord, slots, ImmMode.bits] <;> omega
  | addd d n value =>
    simp only [encode, toNat_append_eq_add, toNat_numBits]
    simp [printedWord, slots, Nat.shiftRight_eq_div_pow]
    omega
  | jmpd | call => simp only [encode, toNat_append_eq_add]; simp [printedWord]
  | jb mode v bit n addr =>
    simp only [encode, toNat_append_eq_add, toNat_numBits]
    cases mode <;> simp [printedWord, slots, JumpMode.bits] <;> omega

/-! ### Decoding an encoded word -/

section ModeBits

/-! What the decoder reads from a mode field is the mode whose bits it holds (R81). -/

@[simp] theorem ImmMode.ofBits_bits (m : ImmMode) : ImmMode.ofBits m.bits = m := by cases m <;> rfl
@[simp] theorem LoadMode.ofBits_bits (m : LoadMode) : LoadMode.ofBits m.bits = some m := by cases m <;> rfl
@[simp] theorem StoreMode.ofBits_bits (m : StoreMode) : StoreMode.ofBits m.bits = some m := by cases m <;> rfl
@[simp] theorem RotDir.ofBits_bits (m : RotDir) : RotDir.ofBits m.bits = m := by cases m <;> rfl
@[simp] theorem RotMode.ofBits_bits (m : RotMode) : RotMode.ofBits m.bits = some m := by cases m <;> rfl
@[simp] theorem AddMode.ofBits_bits (m : AddMode) : AddMode.ofBits m.bits = some m := by cases m <;> rfl
@[simp] theorem SignMode.ofBits_bits (m : SignMode) : SignMode.ofBits m.bits = some m := by cases m <;> rfl
@[simp] theorem DivType.ofBits_bits (m : DivType) : DivType.ofBits m.bits = some m := by cases m <;> rfl
@[simp] theorem CopyMode.ofBits_bits (m : CopyMode) : CopyMode.ofBits m.bits = some m := by cases m <;> rfl
@[simp] theorem JumpMode.ofBits_bits (m : JumpMode) : JumpMode.ofBits m.bits = some m := by cases m <;> rfl

end ModeBits

/-! The words without the standard layout as numbers, field by field. -/

theorem toNat_encode_loadd (d : RegNum) (imm : BitVec 16) (mode : ImmMode) :
    (encode (.loadd d imm mode)).toNat =
      0xFC * 2 ^ 24 + d.val * 2 ^ 19 + imm.toNat * 2 ^ 3 + mode.bits.toNat * 2 ^ 1 := by
  simp only [encode, toNat_append_eq_add, toNat_numBits, BitVec.toNat_ofNat]; omega

theorem toNat_encode_addd (d n : RegNum) (value : BitVec 16) :
    (encode (.addd d n value)).toNat =
      5 * 2 ^ 29 + (value.extractLsb' 14 2).toNat * 2 ^ 24 + d.val * 2 ^ 19 + n.val * 2 ^ 14 +
        (value.extractLsb' 0 14).toNat := by
  simp only [encode, toNat_append_eq_add, toNat_numBits, BitVec.toNat_ofNat]; omega

theorem toNat_encode_jb (mode : JumpMode) (v : Bool) (bit : BitNum) (n : RegNum) (addr : BitVec 14) :
    (encode (.jb mode v bit n addr)).toNat =
      6 * 2 ^ 29 + mode.bits.toNat * 2 ^ 25 + v.toNat * 2 ^ 24 + bit.val * 2 ^ 19 + n.val * 2 ^ 14 + addr.toNat := by
  simp only [encode, toNat_append_eq_add, toNat_numBits, BitVec.toNat_ofNat, BitVec.toNat_ofBool]; omega

theorem decodeWord_encode_loadd (d : RegNum) (imm : BitVec 16) (mode : ImmMode) :
    decodeWord (encode (.loadd d imm mode)) = .ok (.loadd d imm mode) := by
  have h := toNat_encode_loadd d imm mode
  generalize encode (.loadd d imm mode) = w at h
  have hcode : code8 w = 0xFC#8 := extractLsb'_eq_of_toNat (by change _ = 0xFC; omega)
  have hd : regField w 19 = d := regField_eq_of_toNat (by omega)
  have himm : w.extractLsb' 3 16 = imm := extractLsb'_eq_of_toNat (by omega)
  have hmode : w.extractLsb' 1 2 = mode.bits := extractLsb'_eq_of_toNat (by omega)
  rw [decodeWord_of_code_FC hcode, hd, himm, hmode, ImmMode.ofBits_bits]

theorem decodeWord_encode_addd (d n : RegNum) (value : BitVec 16) :
    decodeWord (encode (.addd d n value)) = .ok (.addd d n value) := by
  have h := toNat_encode_addd d n value
  generalize encode (.addd d n value) = w at h
  have hcode : w.extractLsb' 29 3 = 0b101#3 := extractLsb'_eq_of_toNat (by change _ = 5; omega)
  have hd : regField w 19 = d := regField_eq_of_toNat (by omega)
  have hn : regField w 14 = n := regField_eq_of_toNat (by omega)
  have hhigh : w.extractLsb' 24 2 = value.extractLsb' 14 2 := extractLsb'_eq_of_toNat (by omega)
  have hlow : w.extractLsb' 0 14 = value.extractLsb' 0 14 := extractLsb'_eq_of_toNat (by omega)
  have hvalue : value.extractLsb' 14 2 ++ value.extractLsb' 0 14 = value := by
    rw [BitVec.extractLsb'_append_extractLsb'_eq_extractLsb' (by decide)]
    exact BitVec.extractLsb'_eq_self
  rw [decodeWord_of_code_101 hcode, hd, hn, hhigh, hlow, hvalue]

theorem decodeWord_encode_jb (mode : JumpMode) (v : Bool) (bit : BitNum) (n : RegNum) (addr : BitVec 14) :
    decodeWord (encode (.jb mode v bit n addr)) = .ok (.jb mode v bit n addr) := by
  have h := toNat_encode_jb mode v bit n addr
  have hv : v.toNat < 2 := Bool.toNat_lt v
  generalize encode (.jb mode v bit n addr) = w at h
  have hcode : w.extractLsb' 29 3 = 0b110#3 := extractLsb'_eq_of_toNat (by change _ = 6; omega)
  have hmode : w.extractLsb' 25 3 = mode.bits := extractLsb'_eq_of_toNat (by omega)
  have hbit : regField w 19 = bit := regField_eq_of_toNat (by omega)
  have hn : regField w 14 = n := regField_eq_of_toNat (by omega)
  have haddr : w.extractLsb' 0 14 = addr := extractLsb'_eq_of_toNat (by omega)
  have hvalue : w.getLsbD 24 = v := by
    have hfield : w.extractLsb' 24 1 = BitVec.ofBool v :=
      extractLsb'_eq_of_toNat (by rw [BitVec.toNat_ofBool]; omega)
    rw [BitVec.getLsbD_eq_extractLsb', hfield]
    cases v <;> rfl
  rw [decodeWord_of_code_110 hcode, hmode, hvalue, hbit, hn, haddr, JumpMode.ofBits_bits]
  rfl

/-- R73 to R81: decoding gives back what was encoded. -/
theorem decodeWord_encode (i : Instr) : decodeWord (encode i) = .ok i := by
  cases i with
  | loadd d imm mode => exact decodeWord_encode_loadd d imm mode
  | loadr d n mode =>
    have h := hasFields_encode (i := .loadr d n mode) rfl
    rw [decodeWord_of_code_FE h.code, h.regField_19, h.regField_14, h.low_field (by decide)]
    cases mode <;> rfl
  | loadm d m mode =>
    have h := hasFields_encode (i := .loadm d m mode) rfl
    rw [decodeWord_of_code_FD h.code, h.regField_19, h.regField_9, h.low_field (by decide)]
    cases mode <;> rfl
  | store n m mode =>
    have h := hasFields_encode (i := .store n m mode) rfl
    rw [decodeWord_of_code_EC h.code, h.regField_14, h.regField_9, h.low_field (by decide)]
    cases mode <;> rfl
  | and d n m =>
    have h := hasFields_encode (i := .and d n m) rfl
    rw [decodeWord_of_code_F1 h.code, h.regField_19, h.regField_14, h.regField_9]
  | or d n m =>
    have h := hasFields_encode (i := .or d n m) rfl
    rw [decodeWord_of_code_F2 h.code, h.regField_19, h.regField_14, h.regField_9]
  | xor d n m =>
    have h := hasFields_encode (i := .xor d n m) rfl
    rw [decodeWord_of_code_F3 h.code, h.regField_19, h.regField_14, h.regField_9]
  | rot d n step dir mode =>
    have h := hasFields_encode (i := .rot d n step dir mode) rfl
    rw [decodeWord_of_code_F4 h.code, h.regField_19, h.regField_14, h.regField_9, h.low_field (by decide),
      h.low_field (by decide)]
    cases dir <;> cases mode <;> rfl
  | addr d n m mode =>
    have h := hasFields_encode (i := .addr d n m mode) rfl
    rw [decodeWord_of_code_80 h.code, h.regField_19, h.regField_14, h.regField_9, h.low_field (by decide)]
    cases mode <;> rfl
  | addd d n value => exact decodeWord_encode_addd d n value
  | mul d n m mode =>
    have h := hasFields_encode (i := .mul d n m mode) rfl
    rw [decodeWord_of_code_F8 h.code, h.regField_19, h.regField_14, h.regField_9, h.low_field (by decide)]
    cases mode <;> rfl
  | div d n m mode part =>
    have h := hasFields_encode (i := .div d n m mode part) rfl
    rw [decodeWord_of_code_F9 h.code, h.regField_19, h.regField_14, h.regField_9, h.low_field (by decide),
      h.low_field (by decide)]
    cases mode <;> cases part <;> rfl
  | cpyb d n dbit mode sbit =>
    have h := hasFields_encode (i := .cpyb d n dbit mode sbit) rfl
    have hlow : (mode.bits ++ 0#2 ++ numBits sbit).toNat = mode.bits.toNat * 2 ^ 7 + sbit.val := by
      simp only [toNat_append_eq_add, toNat_numBits, BitVec.toNat_ofNat]; omega
    have hnat := h
    simp only [HasFields, slots, hlow] at hnat
    have hsbit : regField (encode (.cpyb d n dbit mode sbit)) 0 = sbit := regField_eq_of_toNat (by omega)
    have hmode : (encode (.cpyb d n dbit mode sbit)).extractLsb' 7 2 = mode.bits := extractLsb'_eq_of_toNat (by omega)
    rw [decodeWord_of_code_E0 h.code, h.regField_19, h.regField_14, h.regField_9, hsbit, hmode, CopyMode.ofBits_bits]
    rfl
  | jmpd addr30 =>
    have h : (encode (.jmpd addr30)).toNat = addr30.toNat := toNat_encode _
    rw [decodeWord_of_code_00 (extractLsb'_eq_of_toNat (by rw [h]; change _ = 0; omega)),
      extractLsb'_eq_of_toNat (v := addr30) (by omega)]
  | call addr30 =>
    have h : (encode (.call addr30)).toNat = 0x40000000 + addr30.toNat := toNat_encode _
    rw [decodeWord_of_code_01 (extractLsb'_eq_of_toNat (by rw [h]; change _ = 1; omega)),
      extractLsb'_eq_of_toNat (v := addr30) (by omega)]
  | jmpr m =>
    have h := hasFields_encode (i := .jmpr m) rfl
    rw [decodeWord_of_code_E8 h.code, h.regField_9]
  | callr m =>
    have h := hasFields_encode (i := .callr m) rfl
    rw [decodeWord_of_code_E9 h.code, h.regField_9]
  | jb mode v bit n addr => exact decodeWord_encode_jb mode v bit n addr
  | push n =>
    have h := hasFields_encode (i := .push n) rfl
    have hones : (encode (.push n)).extractLsb' 8 2 = 0b11#2 :=
      extractLsb'_eq_of_toNat (by rw [h, slots]; simp only [BitVec.toNat_ofNat]; omega)
    rw [decodeWord_of_code_E4 h.code, h.regField_14, if_pos hones]
  | pop d =>
    have h := hasFields_encode (i := .pop d) rfl
    have h9 : (encode (.pop d)).extractLsb' 9 1 = 1#1 :=
      extractLsb'_eq_of_toNat (by rw [h, slots]; simp only [BitVec.toNat_ofNat]; omega)
    rw [decodeWord_of_code_E5 h.code, h.regField_19, if_pos ⟨h9, h.low_field (by decide)⟩]
  | ret => exact decodeWord_of_code_E5 (w := 0xE5000400) rfl
  | nop => exact decodeWord_nop

/-- Settles O1, by the code and the fields of each encoded word. -/
theorem decodeInvertsEncode : Obligations.DecodeInvertsEncode := decodeWord_encode

/-- The encoder's word, from its number. -/
theorem encode_eq_ofNat (i : Instr) : encode i = BitVec.ofNat 32 (printedWord i) := by
  rw [← toNat_encode, BitVec.ofNat_toNat, BitVec.setWidth_eq]

/-- Settles O53: an encoded word is its printed number, and decodes to its instruction. -/
theorem everyWordIsThePrintedNumber : Obligations.EveryWordIsThePrintedNumber :=
  fun i => ⟨toNat_encode i, by rw [← encode_eq_ofNat, decodeWord_encode]⟩

/-- Settles O5: each printed word is the encoded word of its instruction. -/
theorem printedEncodingsDecode : Obligations.PrintedEncodingsDecode :=
  ⟨decodeWord_encode (.loadd 2 0x0102 .high), decodeWord_encode (.store 3 2 .b8),
    decodeWord_encode (.rot 2 3 2 .left .zero), decodeWord_encode (.addd 2 3 0xFFFE),
    decodeWord_encode (.cpyb 2 3 8 .keep 6), decodeWord_encode (.jb .plusZ false 5 2 0x3FA8),
    decodeWord_encode (.push 31), decodeWord_encode .ret⟩

/-- Settles O54: the lines are expanded by definition, and the three printed ones are evaluated. -/
theorem naturalSyntaxOrdersAndDefaults : Obligations.NaturalSyntaxOrdersAndDefaults := by
  refine ⟨?expand, fun _ => ⟨rfl, rfl⟩, ?cpybText, rfl, ?storeText, rfl, ?jbText, rfl⟩
  case expand =>
    intros
    simp [AsmLine.expand, offsetField]
  case cpybText => decide
  case storeText => decide
  case jbText => decide

end Sys2Proof

/-! ## A decoded word and the word the assembler writes (spec/30_encoding.md R85, R86) -/

namespace Sys2Proof

/-- `w` and the word the assembler writes for `i` agree outside `i`'s filler. -/
def AgreesOutsideFiller (w : Word) (i : Instr) : Prop := w &&& ~~~i.row.filler = encode i &&& ~~~i.row.filler

/-- R86: every instruction's word has the constant bits of its row. -/
theorem canonicalForm (i : Instr) : encode i &&& i.row.mask = i.row.bits := by
  cases i with
  | loadd d imm mode => exact Laws.CanonicalForm.loadd d imm mode
  | loadr d n mode => exact Laws.CanonicalForm.loadr d n mode
  | loadm d m mode => exact Laws.CanonicalForm.loadm d m mode
  | store n m mode => exact Laws.CanonicalForm.store n m mode
  | and d n m => exact Laws.CanonicalForm.and d n m
  | or d n m => exact Laws.CanonicalForm.or d n m
  | xor d n m => exact Laws.CanonicalForm.xor d n m
  | rot d n step dir mode => exact Laws.CanonicalForm.rot d n step dir mode
  | addr d n m mode => exact Laws.CanonicalForm.addr d n m mode
  | addd d n value => exact Laws.CanonicalForm.addd d n value
  | mul d n m mode => exact Laws.CanonicalForm.mul d n m mode
  | div d n m mode part => exact Laws.CanonicalForm.div d n m mode part
  | cpyb d n dbit mode sbit => exact Laws.CanonicalForm.cpyb d n dbit mode sbit
  | jmpd addr30 => exact Laws.CanonicalForm.jmpd addr30
  | jmpr m => exact Laws.CanonicalForm.jmpr m
  | jb mode v bit n addr => exact Laws.CanonicalForm.jb mode v bit n addr
  | push n => exact Laws.CanonicalForm.push n
  | pop d => exact Laws.CanonicalForm.pop d
  | call addr30 => exact Laws.CanonicalForm.call addr30
  | callr m => exact Laws.CanonicalForm.callr m
  | ret => exact Laws.CanonicalForm.ret
  | nop => exact Laws.CanonicalForm.nop

/-- Agreeing with the assembler's word outside the filler, a word has the identifying bits. -/
theorem AgreesOutsideFiller.identBits {w : Word} {i : Instr} (h : AgreesOutsideFiller w i) :
    w &&& i.row.identMask = i.row.bits &&& i.row.identMask := by
  have hw : ∀ v : Word, v &&& i.row.identMask = v &&& ~~~i.row.filler &&& i.row.mask := fun v => by
    rw [EncodingRow.identMask, BitVec.and_comm i.row.mask, BitVec.and_assoc]
  have hbits : i.row.bits &&& i.row.identMask = encode i &&& i.row.identMask := by
    rw [← canonicalForm i, EncodingRow.identMask, BitVec.and_assoc, ← BitVec.and_assoc i.row.mask, BitVec.and_self]
  rw [hbits, hw w, h, hw]

@[simp] theorem numBits_regField (w : Word) (lo : Nat) : numBits (regField w lo) = w.extractLsb' lo 5 := rfl

/-- Two words agree outside a filler when they do in each of its other bits. -/
theorem agrees_of_bits {w : Word} {i : Instr}
    (h : ∀ j : Fin 32, (w.getLsbD j.val && !i.row.filler.getLsbD j.val) =
      ((encode i).getLsbD j.val && !i.row.filler.getLsbD j.val)) : AgreesOutsideFiller w i := by
  apply BitVec.eq_of_getLsbD_eq
  intro j hj
  simpa [hj] using h ⟨j, hj⟩

/-! A mode field that is read as a mode holds its bits (R81). -/

theorem ImmMode.bits_ofBits (b : BitVec 2) : (ImmMode.ofBits b).bits = b := by revert b; decide
theorem RotDir.bits_ofBits (b : BitVec 1) : (RotDir.ofBits b).bits = b := by revert b; decide
theorem LoadMode.bits_of_ofBits {b : BitVec 3} {m : LoadMode} (h : LoadMode.ofBits b = some m) : m.bits = b := by
  revert b; cases m <;> decide
theorem StoreMode.bits_of_ofBits {b : BitVec 2} {m : StoreMode} (h : StoreMode.ofBits b = some m) : m.bits = b := by
  revert b; cases m <;> decide
theorem RotMode.bits_of_ofBits {b : BitVec 3} {m : RotMode} (h : RotMode.ofBits b = some m) : m.bits = b := by
  revert b; cases m <;> decide
theorem AddMode.bits_of_ofBits {b : BitVec 3} {m : AddMode} (h : AddMode.ofBits b = some m) : m.bits = b := by
  revert b; cases m <;> decide
theorem SignMode.bits_of_ofBits {b : BitVec 2} {m : SignMode} (h : SignMode.ofBits b = some m) : m.bits = b := by
  revert b; cases m <;> decide
theorem DivType.bits_of_ofBits {b : BitVec 2} {m : DivType} (h : DivType.ofBits b = some m) : m.bits = b := by
  revert b; cases m <;> decide
theorem CopyMode.bits_of_ofBits {b : BitVec 2} {m : CopyMode} (h : CopyMode.ofBits b = some m) : m.bits = b := by
  revert b; cases m <;> decide
theorem JumpMode.bits_of_ofBits {b : BitVec 3} {m : JumpMode} (h : JumpMode.ofBits b = some m) : m.bits = b := by
  revert b; cases m <;> decide

/-! The word the assembler writes for a decoded instruction, in the fields of the decoded word `w`: the constant ones
of PUSH, POP and RET as fields of their own. -/

theorem encode_push (n : RegNum) :
    encode (.push n) = 0xE4#8 ++ 0#5 ++ numBits n ++ (0#4 ++ 0b11#2 ++ 0#8) := rfl

theorem encode_pop (d : RegNum) :
    encode (.pop d) = 0xE5#8 ++ numBits d ++ (0#9 ++ 1#1 ++ 0#1 ++ 1#1 ++ 0#7) := rfl

theorem encode_ret : encode .ret = 0xE5#8 ++ 0#5 ++ (0#8 ++ 1#1 ++ 0#10) := rfl

theorem encode_nop : encode .nop = 0xFF#8 ++ 0#24 := rfl

/-- The words with a short code keep every operand bit. -/
theorem agrees_of_shortCode {w : Word} {i : Instr} (hs : ShortCode (code8 w)) (h : decodeWord w = .ok i) :
    AgreesOutsideFiller w i := by
  rw [ShortCode, code8_top_two, code8_top_three] at hs
  rcases hs with hc | hc | hc | hc
  case inr.inr.inr =>
    rw [decodeWord_of_code_110 hc, orUnassignedMode_ok_iff, Option.map_eq_some_iff] at h
    obtain ⟨mode, hm, rfl⟩ := h
    apply agrees_of_bits
    intro j
    simp only [encode, ← hc, JumpMode.bits_of_ofBits hm, numBits_regField, Instr.row, BitVec.getLsbD_append,
      BitVec.getLsbD_extractLsb', BitVec.getLsbD_ofBool]
    fin_cases j <;> simp
  case inl =>
    cases (decodeWord_of_code_00 hc).symm.trans h
    apply agrees_of_bits
    intro j
    simp only [encode, ← hc, Instr.row, BitVec.getLsbD_append, BitVec.getLsbD_extractLsb']
    fin_cases j <;> simp
  case inr.inl =>
    cases (decodeWord_of_code_01 hc).symm.trans h
    apply agrees_of_bits
    intro j
    simp only [encode, ← hc, Instr.row, BitVec.getLsbD_append, BitVec.getLsbD_extractLsb']
    fin_cases j <;> simp
  case inr.inr.inl =>
    cases (decodeWord_of_code_101 hc).symm.trans h
    apply agrees_of_bits
    intro j
    simp only [encode, ← hc, numBits_regField, Instr.row, BitVec.getLsbD_append, BitVec.getLsbD_extractLsb']
    fin_cases j <;> simp

theorem agrees_push {w : Word} (hc : code8 w = 0xE4#8) (hones : w.extractLsb' 8 2 = 0b11#2) :
    AgreesOutsideFiller w (.push (regField w 14)) := by
  apply agrees_of_bits
  intro j
  simp only [encode_push, ← hc, ← hones, numBits_regField, Instr.row, BitVec.getLsbD_append, BitVec.getLsbD_extractLsb']
  fin_cases j <;> simp

theorem agrees_pop {w : Word} (hc : code8 w = 0xE5#8) (h9 : w.extractLsb' 9 1 = 1#1) (h7 : w.extractLsb' 7 1 = 1#1) :
    AgreesOutsideFiller w (.pop (regField w 19)) := by
  have hb9 : w.getLsbD 9 = true := by rw [BitVec.getLsbD_eq_extractLsb', h9]; rfl
  have hb7 : w.getLsbD 7 = true := by rw [BitVec.getLsbD_eq_extractLsb', h7]; rfl
  apply agrees_of_bits
  intro j
  simp only [encode_pop, ← hc, numBits_regField, Instr.row, BitVec.getLsbD_append, BitVec.getLsbD_extractLsb']
  fin_cases j <;> simp [hb9, hb7]

theorem agrees_ret {w : Word} (hc : code8 w = 0xE5#8) (h19 : w.extractLsb' 19 5 = 0#5)
    (h10 : w.extractLsb' 10 1 = 1#1) : AgreesOutsideFiller w .ret := by
  apply agrees_of_bits
  intro j
  simp only [encode_ret, ← hc, ← h19, ← h10, Instr.row, BitVec.getLsbD_append, BitVec.getLsbD_extractLsb']
  fin_cases j <;> simp

theorem agrees_nop {w : Word} (hc : code8 w = 0xFF#8) : AgreesOutsideFiller w .nop := by
  apply agrees_of_bits
  intro j
  simp only [encode_nop, ← hc, Instr.row, BitVec.getLsbD_append, BitVec.getLsbD_extractLsb']
  fin_cases j <;> simp

/-- The words with a listed 8-bit code keep every operand bit. -/
theorem agrees_of_listed {w : Word} {i : Instr} (hl : code8 w ∈ listedCodes) (h : decodeWord w = .ok i) :
    AgreesOutsideFiller w i := by
  refine listedCodes_cases hl ?c80 ?cE0 ?cE4 ?cE5 ?cE8 ?cE9 ?cEC ?cF1 ?cF2 ?cF3 ?cF4 ?cF8 ?cF9 ?cFC ?cFD ?cFE ?cFF
  all_goals intro hc
  case' c80 =>
    rw [decodeWord_of_code_80 hc, orUnassignedMode_ok_iff, Option.map_eq_some_iff] at h
    obtain ⟨mode, hm, rfl⟩ := h
    replace hm := AddMode.bits_of_ofBits hm
  case' cE0 =>
    rw [decodeWord_of_code_E0 hc, orUnassignedMode_ok_iff, Option.map_eq_some_iff] at h
    obtain ⟨mode, hm, rfl⟩ := h
    replace hm := CopyMode.bits_of_ofBits hm
  case cE4 =>
    rw [decodeWord_of_code_E4 hc] at h
    split at h
    · next hones => cases h; exact agrees_push hc hones
    · cases h
  case cE5 =>
    rw [decodeWord_of_code_E5 hc] at h
    split at h
    · next hones => cases h; exact agrees_pop hc hones.1 hones.2
    · split at h
      · next hones => cases h; exact agrees_ret hc hones.1 hones.2
      · cases h
  case' cE8 => cases (decodeWord_of_code_E8 hc).symm.trans h
  case' cE9 => cases (decodeWord_of_code_E9 hc).symm.trans h
  case' cEC =>
    rw [decodeWord_of_code_EC hc, orUnassignedMode_ok_iff, Option.map_eq_some_iff] at h
    obtain ⟨mode, hm, rfl⟩ := h
    replace hm := StoreMode.bits_of_ofBits hm
  case' cF1 => cases (decodeWord_of_code_F1 hc).symm.trans h
  case' cF2 => cases (decodeWord_of_code_F2 hc).symm.trans h
  case' cF3 => cases (decodeWord_of_code_F3 hc).symm.trans h
  case' cF4 =>
    rw [decodeWord_of_code_F4 hc, orUnassignedMode_ok_iff, Option.map_eq_some_iff] at h
    obtain ⟨mode, hm, rfl⟩ := h
    replace hm := RotMode.bits_of_ofBits hm
  case' cF8 =>
    rw [decodeWord_of_code_F8 hc, orUnassignedMode_ok_iff, Option.map_eq_some_iff] at h
    obtain ⟨mode, hm, rfl⟩ := h
    replace hm := SignMode.bits_of_ofBits hm
  case' cF9 =>
    rw [decodeWord_of_code_F9 hc, orUnassignedMode_ok_iff, Option.bind_eq_some_iff] at h
    obtain ⟨mode, hm, h⟩ := h
    obtain ⟨part, hp, rfl⟩ := Option.map_eq_some_iff.mp h
    replace hm := SignMode.bits_of_ofBits hm
    replace hp := DivType.bits_of_ofBits hp
  case' cFC => cases (decodeWord_of_code_FC hc).symm.trans h
  case' cFD =>
    rw [decodeWord_of_code_FD hc, orUnassignedMode_ok_iff, Option.map_eq_some_iff] at h
    obtain ⟨mode, hm, rfl⟩ := h
    replace hm := LoadMode.bits_of_ofBits hm
  case' cFE =>
    rw [decodeWord_of_code_FE hc, orUnassignedMode_ok_iff, Option.map_eq_some_iff] at h
    obtain ⟨mode, hm, rfl⟩ := h
    replace hm := LoadMode.bits_of_ofBits hm
  case cFF => cases (decodeWord_of_code_FF hc).symm.trans h; exact agrees_nop hc
  all_goals
    replace hc := hc.symm
    apply agrees_of_bits
    intro j
    simp only [encode, *, ImmMode.bits_ofBits, RotDir.bits_ofBits, numBits_regField, Instr.row,
      BitVec.getLsbD_append, BitVec.getLsbD_extractLsb']
    fin_cases j <;> simp

/-- Every decoded word agrees with the assembler's word outside the filler. -/
theorem agrees_of_decodeWord {w : Word} {i : Instr} (h : decodeWord w = .ok i) : AgreesOutsideFiller w i := by
  rcases code_cases (code8 w) with hc | hc | hc
  · exact agrees_of_shortCode hc h
  · exact agrees_of_listed hc h
  · cases (decodeWord_of_unlistedCode hc).symm.trans h

/-- Settles O2: the word agrees with the assembler's outside the filler, and that has the row's constant bits. -/
theorem decodedWordDiffersInFillerOnly : Obligations.DecodedWordDiffersInFillerOnly :=
  fun _ _ h => ⟨(agrees_of_decodeWord h).identBits, agrees_of_decodeWord h⟩

end Sys2Proof

/-! ## What executing an instruction can do (spec/10_state.md R22 to R37, spec/20_memory.md R56) -/

namespace Sys2Proof

open Sys2Proof.Machine Sys2Proof.Claims

/-! ### Present bytes (R58) -/

theorem present_iff (s : State) (a : Word) (n : Nat) : Present s a n ↔ s.accessOk a n = true := by
  simp [Present, accessOk_iff, has_iff]

theorem not_present_iff (s : State) (a : Word) (n : Nat) : ¬Present s a n ↔ s.accessOk a n = false := by
  rw [present_iff, Bool.not_eq_true]

/-- The addresses of an access do not depend on how `accessed` counts the bytes of a LOADm. -/
theorem accessed_loadm (s : State) (d m : RegNum) (mode : LoadMode) :
    accessed s (.loadm d m mode) = some (s.readReg m, loadBytes mode) := by
  cases mode <;> rfl

theorem accessed_store (s : State) (n m : RegNum) (mode : StoreMode) :
    accessed s (.store n m mode) = some (s.readReg m, storeBytes mode) := by
  cases mode <;> rfl

theorem storedTo_store (s : State) (n m : RegNum) (mode : StoreMode) :
    storedTo s (.store n m mode) = span (s.readReg m) (storeBytes mode) := by
  cases mode <;> rfl

/-- `AccessPresent` for an instruction with an access is the model's own check of it. -/
theorem accessPresent_iff {s : State} {i : Instr} {a : Word} {n : Nat} (h : accessed s i = some (a, n)) :
    AccessPresent s i ↔ s.accessOk a n = true := by
  rw [← present_iff, AccessPresent, h]
  exact ⟨fun hp => hp a n rfl, fun hp b k e => by cases e; exact hp⟩

/-! ### The meanings, one equation for each way an instruction completes -/

section Exec

variable (s : State) (d n m : RegNum)

theorem exec_loadd (imm : BitVec 16) (mode : ImmMode) :
    exec (.loadd d imm mode) s =
      .next (s.loadLogicResult d [imm.setWidth 32, s.readReg d, mode.bits.setWidth 32]
        (loadImmediate mode imm (s.readReg d))) := rfl

theorem exec_loadr (mode : LoadMode) :
    exec (.loadr d n mode) s =
      .next (s.loadLogicResult d [s.readReg n, mode.bits.setWidth 32] (extendRegister mode (s.readReg n))) := rfl

theorem exec_and :
    exec (.and d n m) s =
      .next (s.loadLogicResult d [s.readReg n, s.readReg m] (s.readReg n &&& s.readReg m)) := rfl

theorem exec_or :
    exec (.or d n m) s =
      .next (s.loadLogicResult d [s.readReg n, s.readReg m] (s.readReg n ||| s.readReg m)) := rfl

theorem exec_xor :
    exec (.xor d n m) s =
      .next (s.loadLogicResult d [s.readReg n, s.readReg m] (s.readReg n ^^^ s.readReg m)) := rfl

theorem exec_loadm_pcReg (mode : LoadMode) : exec (.loadm pcReg m mode) s = .refused .loadmIntoR00 := rfl

variable {s d n m}

theorem exec_loadm {mode : LoadMode} (hd : d ≠ pcReg) (hok : s.accessOk (s.readReg m) (loadBytes mode) = true) :
    exec (.loadm d m mode) s =
      .next (s.loadLogicResult d
        [s.readReg m, loadMemory mode s.mem (s.readReg m), mode.bits.setWidth 32]
        (loadMemory mode s.mem (s.readReg m))) := by
  simp [exec, execLoadm, hd, hok]

theorem exec_loadm_fault {mode : LoadMode} (hd : d ≠ pcReg)
    (hok : s.accessOk (s.readReg m) (loadBytes mode) = false) :
    exec (.loadm d m mode) s = .fault (.noMemory (s.readReg m)) := by
  simp [exec, execLoadm, hd, hok]

theorem exec_store {mode : StoreMode} (hok : s.accessOk (s.readReg m) (storeBytes mode) = true) :
    exec (.store n m mode) s = .next (s.withMem (storeMemory mode s.mem (s.readReg m) (s.readReg n))) := by
  simp [exec, execStore, hok]

theorem exec_store_fault {mode : StoreMode} (hok : s.accessOk (s.readReg m) (storeBytes mode) = false) :
    exec (.store n m mode) s = .fault (.noMemory (s.readReg m)) := by
  simp [exec, execStore, hok]

theorem exec_push (hok : s.accessOk (s.readReg spReg) 4 = true) :
    exec (.push n) s = .next (s.pushWord (s.readReg n)) := by
  simp [exec, execPush, hok]

theorem exec_push_fault (hok : s.accessOk (s.readReg spReg) 4 = false) :
    exec (.push n) s = .fault (.noMemory (s.readReg spReg)) := by
  simp [exec, execPush, hok]

theorem exec_call {addr30 : BitVec 30} (hok : s.accessOk (s.readReg spReg) 4 = true) :
    exec (.call addr30) s =
      .next ((s.pushWord (s.readReg pcReg)).writeReg pcReg (absoluteTarget addr30)) := by
  simp [exec, execCall, hok]

theorem exec_call_fault {addr30 : BitVec 30} (hok : s.accessOk (s.readReg spReg) 4 = false) :
    exec (.call addr30) s = .fault (.noMemory (s.readReg spReg)) := by
  simp [exec, execCall, hok]

theorem exec_callr (hok : s.accessOk (s.readReg spReg) 4 = true) :
    exec (.callr m) s = .next ((s.pushWord (s.readReg pcReg)).writeReg pcReg (s.readReg m)) := by
  simp [exec, execCallr, hok]

theorem exec_callr_fault (hok : s.accessOk (s.readReg spReg) 4 = false) :
    exec (.callr m) s = .fault (.noMemory (s.readReg spReg)) := by
  simp [exec, execCallr, hok]

theorem exec_pop (hok : s.accessOk s.topAddress 4 = true) : exec (.pop d) s = .next (s.popInto d) := by
  simp [exec, execPop, hok]

theorem exec_pop_fault (hok : s.accessOk s.topAddress 4 = false) :
    exec (.pop d) s = .fault (.noMemory s.topAddress) := by
  simp [exec, execPop, hok]

/-- R184: RET is POP R00 in every state. -/
theorem exec_ret_eq_pop (s : State) : exec .ret s = exec (.pop pcReg) s := rfl

/-- The value ADDr computes, and the state with its flags set (R140). -/
theorem exec_addr {mode : AddMode} (hmode : mode ≠ .cmp) :
    exec (.addr d n m mode) s =
      .next (((s.addrFlags mode (s.readReg n) (s.readReg m) (s.flag .c32)).flagsResult
        (addrValue mode (s.readReg n) (s.readReg m) (s.flag .c32))).writeReg d
        (addrValue mode (s.readReg n) (s.readReg m) (s.flag .c32))) := by
  simp [exec, execAddr, hmode]

theorem exec_addr_cmp (s : State) (d n m : RegNum) :
    exec (.addr d n m .cmp) s =
      .next ((s.flagsSub (s.readReg n) (s.readReg m) false).flagsResult (s.readReg n - s.readReg m)) := rfl

theorem exec_addd (s : State) (d n : RegNum) (value : BitVec 16) :
    exec (.addd d n value) s =
      .next (((s.flagsAdd (s.readReg n) (addImmediate value) false).flagsResult
        (s.readReg n + addImmediate value)).writeReg d (s.readReg n + addImmediate value)) := rfl

theorem exec_jb_taken {mode : JumpMode} {v : Bool} {bit : BitNum} {addr : BitVec 14}
    (h : jumpCondition s mode v bit n = true) :
    exec (.jb mode v bit n addr) s = .next (s.writeReg pcReg (s.readReg pcReg + jumpOffset addr)) := by
  simp [exec, execJb, h]

theorem exec_jb_not_taken {mode : JumpMode} {v : Bool} {bit : BitNum} {addr : BitVec 14}
    (h : jumpCondition s mode v bit n = false) : exec (.jb mode v bit n addr) s = .next s := by
  simp [exec, execJb, h]

theorem exec_rot_refused (s : State) (d n : RegNum) (step : Fin 32) :
    exec (.rot d n step .left .sign) s = .refused .rotSignLeft := rfl

theorem exec_rot (s : State) (d n : RegNum) (step : Fin 32) {dir : RotDir} {mode : RotMode}
    (h : ¬(mode = .sign ∧ dir = .left)) :
    ∃ operands, exec (.rot d n step dir mode) s =
      .next (((s.flagsResult (rotLoop dir mode step.val (s.readReg n) (s.flag .c32) none).1).rotCarry operands mode
        (rotLoop dir mode step.val (s.readReg n) (s.flag .c32) none).2).writeReg d
        (rotLoop dir mode step.val (s.readReg n) (s.flag .c32) none).1) :=
  ⟨_, by simp only [exec, execRot, h, if_false]; rfl⟩

theorem exec_mul (s : State) (d n m : RegNum) (mode : SignMode) :
    ∃ operands, exec (.mul d n m mode) s =
      .next (((s.flagsResult (s.readReg n * s.readReg m)).drawFlags Config.flagsAuxMul operands auxMulDivFlags).writeReg
        d (s.readReg n * s.readReg m)) :=
  ⟨_, by rw [← mulValue_eq mode]; rfl⟩

theorem exec_cpyb (s : State) (d n : RegNum) (dbit : BitNum) (mode : CopyMode) (sbit : BitNum) :
    ∃ operands, exec (.cpyb d n dbit mode sbit) s =
      .next ((((s.flagsResult (copyBitValue mode (s.readReg d) dbit ((s.readReg n).getLsbD sbit.val))).drawFlags
        Config.flagsAuxCpyb operands auxShiftFlags).setFlag .c32 ((s.readReg n).getLsbD sbit.val)).writeReg d
        (copyBitValue mode (s.readReg d) dbit ((s.readReg n).getLsbD sbit.val))) :=
  ⟨_, rfl⟩

theorem divide_eq (mode : SignMode) (a b : Word) : divide mode a b = (quotient mode a b, remainder mode a b) := by
  cases mode
  · exact divide_signed a b
  · exact divide_unsigned a b

theorem divPart_eq (part : DivType) (q rem : Word) : divPart part q rem = divResult part q rem := by
  cases part <;> rfl

theorem noQuotient_iff (mode : SignMode) (a b : Word) : noQuotient mode a b ↔ b = 0 ∨ divOverflows mode a b = true := by
  simp [noQuotient, divOverflows, and_assoc]

theorem exec_div (s : State) {d n m : RegNum} {mode : SignMode} (part : DivType)
    (h : ¬noQuotient mode (s.readReg n) (s.readReg m)) :
    ∃ operands, exec (.div d n m mode part) s =
      .next (((s.flagsResult (divResult part (quotient mode (s.readReg n) (s.readReg m))
        (remainder mode (s.readReg n) (s.readReg m)))).drawFlags Config.flagsAuxDiv operands auxMulDivFlags).writeReg d
        (divResult part (quotient mode (s.readReg n) (s.readReg m))
          (remainder mode (s.readReg n) (s.readReg m)))) := by
  rw [noQuotient_iff, not_or, Bool.not_eq_true] at h
  exact ⟨_, by simp only [exec, execDiv, h.1, h.2, if_false, Bool.false_eq_true, divide_eq, divPart_eq]; rfl⟩

theorem exec_div_noQuotient (s : State) {d n m : RegNum} {mode : SignMode} (part : DivType)
    (h : noQuotient mode (s.readReg n) (s.readReg m)) :
    ∃ source operands r, exec (.div d n m mode part) s =
      .next ((s.drawFlags source operands resultFlags).writeReg d r) := by
  rw [noQuotient_iff] at h
  by_cases hz : s.readReg m = 0
  · exact ⟨_, _, _, by simp only [exec, execDiv, hz, if_true]; rfl⟩
  · exact ⟨_, _, _, by simp only [exec, execDiv, hz, h.resolve_left hz, if_true, if_false]; rfl⟩

end Exec

end Sys2Proof

/-! ## The effect of an instruction, and what every instruction keeps (spec/10_state.md R21 to R39) -/

namespace Sys2Proof

open Sys2Proof.Machine Sys2Proof.Claims

/-! ### Flag updates before a result -/

theorem rotCarry_flagsOnly (s : State) (operands : List Word) (mode : RotMode) (out : Option Bool) :
    FlagsOnly s (s.rotCarry operands mode out) := by
  have hdraw : FlagsOnly s (s.drawFlags Config.flagsAuxRot operands auxShiftFlags) :=
    drawFlags_flagsOnly _ _ _ _ (by decide)
  cases mode <;> cases out
  case rot.none | rot.some => exact drawFlags_flagsOnly _ _ _ _ (by decide)
  case zero.none | one.none | carry.none | sign.none => exact hdraw
  case zero.some | one.some | carry.some | sign.some => exact hdraw.trans (setFlag_flagsOnly _ (by decide) _)

theorem addrFlags_flagsOnly (s : State) (mode : AddMode) (a b : Word) (c : Bool) :
    FlagsOnly s (s.addrFlags mode a b c) := by
  cases mode
  case add | addc => exact flagsAdd_flagsOnly _ _ _ _
  case sub | cmp | subc => exact flagsSub_flagsOnly _ _ _ _

/-! ### The effects -/

/-- The destination of an instruction that computes a result and its flags; POP, which sets no flags, is none. -/
def computes : Instr → Option RegNum
  | .pop _ => none
  | i => destination i

/-- What a completed instruction does to the state `s` it executes in. -/
inductive Effect (s : State) : Instr → State → Prop
  | result {i : Instr} {d : RegNum} {u : State} (r : Word) (hd : computes i = some d) (hu : FlagsOnly s u)
      (hc : leavesCarry i = true → u.flag .c32 = s.flag .c32) : Effect s i (u.writeReg d r)
  | compare {d n m : RegNum} {u : State} (hu : FlagsOnly s u) : Effect s (.addr d n m .cmp) u
  | store {n m : RegNum} {mode : StoreMode} (v : Word)
      (hok : s.accessOk (s.readReg m) (storeBytes mode) = true) :
      Effect s (.store n m mode) (s.withMem (storeMemory mode s.mem (s.readReg m) v))
  | jump {i : Instr} (v : Word) (hw : mayWrite i = [0]) : Effect s i (s.writeReg pcReg v)
  | none {i : Instr} (hd : computes i = none) : Effect s i s
  | push {n : RegNum} (v : Word) (hok : s.accessOk (s.readReg spReg) 4 = true) : Effect s (.push n) (s.pushWord v)
  | call {i : Instr} (v target : Word) (hw : mayWrite i = [0, 1]) (hs : storedTo s i = span (s.readReg 1) 4)
      (hok : s.accessOk (s.readReg spReg) 4 = true) : Effect s i ((s.pushWord v).writeReg pcReg target)
  | pop {i : Instr} {d : RegNum} (hw : mayWrite i = [d, 1]) : Effect s i (s.popInto d)

/-- The loads and the logic instructions leave C32. -/
theorem Effect.loadLogic {s : State} {i : Instr} {d : RegNum} (operands : List Word) (r : Word)
    (hd : computes i = some d) : Effect s i (s.loadLogicResult d operands r) :=
  .result r hd (loadLogic_flagsOnly s operands r) fun _ => by
    simp [flag_drawFlags, auxLogicFlags, flag_flagsResult]

/-- The other computing instructions, which set C32 (R142). -/
theorem Effect.arithmetic {s u : State} {i : Instr} {d : RegNum} (r : Word) (hd : computes i = some d)
    (hc : leavesCarry i = false) (hu : FlagsOnly s u) : Effect s i (u.writeReg d r) :=
  .result r hd hu fun h => absurd (hc.symm.trans h) Bool.false_ne_true

/-- R10: every way an instruction completes is one of the effects. -/
theorem effect_of_exec {i : Instr} {s t : State} (h : exec i s = .next t) : Effect s i t := by
  cases i with
  | loadd d imm mode => cases h; exact .loadLogic _ _ rfl
  | loadr d n mode => cases h; exact .loadLogic _ _ rfl
  | and d n m => cases h; exact .loadLogic _ _ rfl
  | or d n m => cases h; exact .loadLogic _ _ rfl
  | xor d n m => cases h; exact .loadLogic _ _ rfl
  | loadm d m mode =>
    by_cases hd : d = pcReg
    · subst hd; cases h
    · cases hok : s.accessOk (s.readReg m) (loadBytes mode) with
      | false => cases (exec_loadm_fault hd hok).symm.trans h
      | true => cases (exec_loadm hd hok).symm.trans h; exact .loadLogic _ _ rfl
  | store n m mode =>
    cases hok : s.accessOk (s.readReg m) (storeBytes mode) with
    | false => cases (exec_store_fault hok).symm.trans h
    | true => cases (exec_store hok).symm.trans h; exact .store _ hok
  | rot d n step dir mode =>
    by_cases hleft : mode = .sign ∧ dir = .left
    · obtain ⟨rfl, rfl⟩ := hleft; cases h
    · obtain ⟨ops, hexec⟩ := exec_rot s d n step hleft
      cases hexec.symm.trans h
      exact .arithmetic _ rfl rfl ((flagsResult_flagsOnly _ _).trans (rotCarry_flagsOnly _ _ _ _))
  | addr d n m mode =>
    by_cases hmode : mode = .cmp
    · subst hmode; cases h
      exact .compare ((flagsSub_flagsOnly _ _ _ _).trans (flagsResult_flagsOnly _ _))
    · cases (exec_addr hmode).symm.trans h
      exact .arithmetic _ (if_neg hmode) rfl ((addrFlags_flagsOnly _ _ _ _ _).trans (flagsResult_flagsOnly _ _))
  | addd d n value =>
    cases h
    exact .arithmetic _ rfl rfl ((flagsAdd_flagsOnly _ _ _ _).trans (flagsResult_flagsOnly _ _))
  | mul d n m mode =>
    obtain ⟨ops, hexec⟩ := exec_mul s d n m mode
    cases hexec.symm.trans h
    exact .arithmetic _ rfl rfl ((flagsResult_flagsOnly _ _).trans (drawFlags_flagsOnly _ _ _ _ (by decide)))
  | div d n m mode part =>
    by_cases hq : noQuotient mode (s.readReg n) (s.readReg m)
    · obtain ⟨source, ops, r, hexec⟩ := exec_div_noQuotient s part hq
      cases hexec.symm.trans h
      exact .arithmetic _ rfl rfl (drawFlags_flagsOnly _ _ _ _ (by decide))
    · obtain ⟨ops, hexec⟩ := exec_div s part hq
      cases hexec.symm.trans h
      exact .arithmetic _ rfl rfl ((flagsResult_flagsOnly _ _).trans (drawFlags_flagsOnly _ _ _ _ (by decide)))
  | cpyb d n dbit mode sbit =>
    cases h
    exact .arithmetic _ rfl rfl (((flagsResult_flagsOnly _ _).trans (drawFlags_flagsOnly _ _ _ _ (by decide))).trans
      (setFlag_flagsOnly _ (by decide) _))
  | jmpd addr30 => cases h; exact .jump _ rfl
  | jmpr m => cases h; exact .jump _ rfl
  | jb mode v bit n addr =>
    cases hcond : jumpCondition s mode v bit n with
    | false => cases (exec_jb_not_taken hcond).symm.trans h; exact .none rfl
    | true => cases (exec_jb_taken hcond).symm.trans h; exact .jump _ rfl
  | push n =>
    cases hok : s.accessOk (s.readReg spReg) 4 with
    | false => cases (exec_push_fault hok).symm.trans h
    | true => cases (exec_push hok).symm.trans h; exact .push _ hok
  | pop d =>
    cases hok : s.accessOk s.topAddress 4 with
    | false => cases (exec_pop_fault hok).symm.trans h
    | true => cases (exec_pop hok).symm.trans h; exact .pop rfl
  | call addr30 =>
    cases hok : s.accessOk (s.readReg spReg) 4 with
    | false => cases (exec_call_fault hok).symm.trans h
    | true => cases (exec_call hok).symm.trans h; exact .call _ _ rfl rfl hok
  | callr m =>
    cases hok : s.accessOk (s.readReg spReg) 4 with
    | false => cases (exec_callr_fault hok).symm.trans h
    | true => cases (exec_callr hok).symm.trans h; exact .call _ _ rfl rfl hok
  | ret =>
    rw [exec_ret_eq_pop] at h
    cases hok : s.accessOk s.topAddress 4 with
    | false => cases (exec_pop_fault hok).symm.trans h
    | true => cases (exec_pop hok).symm.trans h; exact .pop rfl
  | nop => cases h; exact .none rfl

/-! ### What the statements' lists say of a computing instruction -/

theorem mayWrite_of_computes {i : Instr} {d : RegNum} (h : computes i = some d) : mayWrite i = [d, 2] := by
  cases i <;> simp_all [computes, destination, mayWrite]

theorem destination_of_computes {i : Instr} {d : RegNum} (h : computes i = some d) : destination i = some d := by
  cases i <;> simp_all [computes, destination]

/-- R37: an instruction without flag impact does not write R02. -/
theorem flagsReg_not_mem_mayWrite {i : Instr} (h : leavesFlags i = true) : flagsReg ∉ mayWrite i := by
  cases i with
  | pop d =>
    have hd : flagsReg ≠ d := Ne.symm (bne_iff_ne.mp h)
    exact List.not_mem_cons_of_ne_of_not_mem hd (by decide)
  | store | nop => exact List.not_mem_nil
  | jmpd | jmpr | jb => exact (by decide : flagsReg ∉ [(0 : RegNum)])
  | push => exact (by decide : flagsReg ∉ [(1 : RegNum)])
  | call | callr | ret => exact (by decide : flagsReg ∉ [(0 : RegNum), 1])
  | _ => cases h

/-- R37, R142: the loads and the logic instructions that leave C32 have another destination than R02. -/
theorem ne_flagsReg_of_leavesCarry {i : Instr} {d : RegNum} (hd : computes i = some d) (h : leavesCarry i = true) :
    d ≠ flagsReg := by
  cases i with
  | loadd | loadr | loadm | and | or | xor => cases hd; exact bne_iff_ne.mp h
  | rot | addr | addd | mul | div | cpyb => cases h
  | _ => cases hd

/-- The instructions that compute no result and leave C32 have no flag impact at all (R37). -/
theorem leavesFlags_of_leavesCarry {i : Instr} (hd : computes i = none) (h : leavesCarry i = true) :
    leavesFlags i = true := by
  cases i with
  | loadd | loadr | loadm | and | or | xor => cases hd
  | _ => exact h

/-- The instructions that compute no result and do not name R02 as destination have no flag impact, but for a
compare (R37, R141). -/
theorem leavesFlags_or_compare {i : Instr} (hd : computes i = none) (h : destination i ≠ some 2) :
    leavesFlags i = true ∨ ∃ d n m, i = .addr d n m .cmp := by
  cases i with
  | pop d => exact .inl (bne_iff_ne.mpr fun e => h (congrArg some e))
  | addr d n m mode =>
    by_cases hmode : mode = .cmp
    · exact .inr ⟨d, n, m, by rw [hmode]⟩
    · cases (if_neg hmode).symm.trans hd
  | store | jmpd | jmpr | jb | push | call | callr | ret | nop => exact .inl rfl
  | _ => cases hd

/-- The effect of a computing instruction: flags, then the result. -/
theorem Effect.result_of_computes {s t : State} {i : Instr} {d : RegNum} (h : Effect s i t) (hd : computes i = some d) :
    ∃ u r, FlagsOnly s u ∧ (leavesCarry i = true → u.flag .c32 = s.flag .c32) ∧ t = u.writeReg d r := by
  have hw := mayWrite_of_computes hd
  cases h with
  | result r hd' hu hc => cases hd'.symm.trans hd; exact ⟨_, r, hu, hc, rfl⟩
  | none hd' => cases hd'.symm.trans hd
  | compare | store | push => cases hd
  | jump v hw' => cases hw'.symm.trans hw
  | call v target hw' => cases hw'.symm.trans hw
  | pop hw' => cases hw'.symm.trans hw

/-! ### Frames -/

/-- Nothing but the listed registers changes in an effect. -/
theorem Effect.regsKept {s t : State} {i : Instr} (h : Effect s i t) : RegsKept (mayWrite i) s t := by
  intro q hq
  cases h with
  | result r hd hu hc =>
    rw [mayWrite_of_computes hd, List.mem_pair, not_or] at hq
    rw [readReg_writeReg_other _ _ hq.1, hu.readReg hq.2]
  | compare hu => exact hu.readReg (List.ne_of_not_mem_cons hq)
  | store | none => rfl
  | jump v hw =>
    rw [hw] at hq
    exact readReg_writeReg_other _ _ (List.ne_of_not_mem_cons hq)
  | push v hok => exact (pushWord_spec s v).2.1 q (List.ne_of_not_mem_cons hq)
  | call v target hw hs hok =>
    rw [hw, List.mem_pair, not_or] at hq
    exact (readReg_writeReg_other _ _ hq.1).trans ((pushWord_spec s v).2.1 q hq.2)
  | pop hw =>
    rw [hw, List.mem_pair, not_or] at hq
    obtain ⟨-, -, hregs, -⟩ := popInto_spec s _
    exact hregs q hq.1 hq.2

/-- Settles O15, effect by effect. -/
theorem onlyNamedRegistersChange : Obligations.OnlyNamedRegistersChange :=
  fun _ _ _ h => (effect_of_exec h).regsKept

/-- Settles O16: of the effects only the stores and the pushes write memory, each to its own bytes. -/
theorem onlyAddressedBytesChange : Obligations.OnlyAddressedBytesChange := by
  intro i s t h a ha
  cases effect_of_exec h with
  | result r hd hu hc => rw [writeReg_mem, hu.mem]
  | compare hu => rw [hu.mem]
  | store v hok =>
    rw [storedTo_store] at ha
    exact read_storeMemory_outside _ _ _ _ ha
  | jump | none | pop => rfl
  | push v hok => exact read_write32_outside _ _ _ ha
  | call v target hw hs hok =>
    rw [hs] at ha
    exact read_write32_outside _ _ _ ha

/-- Settles O17: these instructions do not list R02 among the registers they write. -/
theorem noImpactInstructionsKeepR02 : Obligations.NoImpactInstructionsKeepR02 :=
  fun _ _ _ hi h => (effect_of_exec h).regsKept flagsReg (flagsReg_not_mem_mayWrite hi)

/-- Where R02 reads as before, so does every flag. -/
theorem flag_congr {s t : State} (h : t.readReg flagsReg = s.readReg flagsReg) (f : Flag) : t.flag f = s.flag f := by
  rw [flag_eq_readReg, flag_eq_readReg, h]

/-- Settles O18: without a result R02 stays; with one, C32 is kept by the flag update and by the result. -/
theorem carrySurvivesLoadsAndLogic : Obligations.CarrySurvivesLoadsAndLogic := by
  intro i s t hi h
  cases hd : computes i with
  | none =>
    exact flag_congr (noImpactInstructionsKeepR02 i s t (leavesFlags_of_leavesCarry hd hi) h) .c32
  | some d =>
    obtain ⟨u, r, -, hcarry, rfl⟩ := (effect_of_exec h).result_of_computes hd
    rw [flag_writeReg_other _ _ (ne_flagsReg_of_leavesCarry hd hi), hcarry hi]

/-- Settles O14: no flag update touches EI, and a result reaches it only in R02. -/
theorem interruptEnableChangesOnlyThroughR02 : Obligations.InterruptEnableChangesOnlyThroughR02 := by
  intro i s t h hdest
  cases hd : computes i with
  | none =>
    rcases leavesFlags_or_compare hd hdest with hflags | ⟨d, n, m, rfl⟩
    · exact flag_congr (noImpactInstructionsKeepR02 i s t hflags h) .ei
    · cases h
      exact ((flagsSub_flagsOnly _ _ _ _).trans (flagsResult_flagsOnly _ _)).ei
  | some d =>
    obtain ⟨u, r, hu, -, rfl⟩ := (effect_of_exec h).result_of_computes hd
    have hd2 : d ≠ flagsReg := fun e => hdest (by rw [destination_of_computes hd, e]; rfl)
    rw [flag_writeReg_other _ _ hd2, hu.ei]

end Sys2Proof

/-! ## Completion, refusals and faults (spec/00_scope.md R10, spec/20_memory.md R58, spec/60_exceptions.md) -/

namespace Sys2Proof

open Sys2Proof.Machine Sys2Proof.Claims

/-! ### Which instructions are well-formed -/

/-- With 32 registers only LOADm into R00 and ROT in mode sign to the left are not well-formed (R4, R103, R127 b). -/
theorem wellFormed_eq (i : Instr) : i.wellFormed = (i.loadmDestOk && i.rotSignOk) := by
  rw [Instr.wellFormed, Instr.wellFormedFor, registersBelow_nregs, Bool.true_and]

theorem wellFormed_loadm (d m : RegNum) (mode : LoadMode) : (Instr.loadm d m mode).wellFormed = true ↔ d ≠ pcReg := by
  rw [wellFormed_eq]
  simp [Instr.loadmDestOk, Instr.rotSignOk, pcReg]

theorem wellFormed_rot (d n : RegNum) (step : Fin 32) (dir : RotDir) (mode : RotMode) :
    (Instr.rot d n step dir mode).wellFormed = true ↔ ¬(mode = .sign ∧ dir = .left) := by
  rw [wellFormed_eq]
  cases dir <;> cases mode <;> simp [Instr.loadmDestOk, Instr.rotSignOk]

/-- R103, R127 (b): the forms that are not well-formed are refused by name. -/
theorem exec_refused {i : Instr} (h : i.wellFormed = false) (s : State) :
    exec i s = .refused .loadmIntoR00 ∨ exec i s = .refused .rotSignLeft := by
  cases i with
  | loadm d m mode =>
    have hd : d = pcReg := by
      by_contra hne
      exact absurd ((wellFormed_loadm d m mode).mpr hne) (by simp [h])
    subst hd
    exact .inl (exec_loadm_pcReg s m mode)
  | rot d n step dir mode =>
    have hleft : mode = .sign ∧ dir = .left := by
      by_contra hne
      exact absurd ((wellFormed_rot d n step dir mode).mpr hne) (by simp [h])
    obtain ⟨rfl, rfl⟩ := hleft
    exact .inr (exec_rot_refused s d n step)
  | _ => simp [wellFormed_eq, Instr.loadmDestOk, Instr.rotSignOk] at h

/-- A well-formed instruction that accesses no memory completes. -/
theorem exec_completes_of_no_access {i : Instr} {s : State} (hw : i.wellFormed = true) (h : accessed s i = none) :
    ∃ t, exec i s = .next t := by
  cases i with
  | loadm | store | push | pop | call | callr | ret => cases h
  | rot d n step dir mode =>
    obtain ⟨ops, hexec⟩ := exec_rot s d n step ((wellFormed_rot d n step dir mode).mp hw)
    exact ⟨_, hexec⟩
  | addr d n m mode =>
    by_cases hmode : mode = .cmp
    · subst hmode; exact ⟨_, exec_addr_cmp s d n m⟩
    · exact ⟨_, exec_addr hmode⟩
  | div d n m mode part =>
    by_cases hq : noQuotient mode (s.readReg n) (s.readReg m)
    · obtain ⟨source, ops, r, hexec⟩ := exec_div_noQuotient s part hq
      exact ⟨_, hexec⟩
    · obtain ⟨ops, hexec⟩ := exec_div s part hq
      exact ⟨_, hexec⟩
  | jb mode v bit n addr =>
    cases hcond : jumpCondition s mode v bit n with
    | false => exact ⟨_, exec_jb_not_taken hcond⟩
    | true => exact ⟨_, exec_jb_taken hcond⟩
  | _ => exact ⟨_, rfl⟩

/-- R58: a well-formed instruction that accesses memory completes when all its bytes exist, and otherwise stops with the
fault that names its access. -/
theorem exec_of_access {i : Instr} {s : State} {a : Word} {n : Nat} (hw : i.wellFormed = true)
    (h : accessed s i = some (a, n)) :
    (s.accessOk a n = true → ∃ t, exec i s = .next t) ∧ (s.accessOk a n = false → exec i s = .fault (.noMemory a)) := by
  cases i with
  | loadm d m mode =>
    rw [accessed_loadm] at h
    cases h
    have hd := (wellFormed_loadm d m mode).mp hw
    exact ⟨fun hok => ⟨_, exec_loadm hd hok⟩, exec_loadm_fault hd⟩
  | store n m mode =>
    rw [accessed_store] at h
    cases h
    exact ⟨fun hok => ⟨_, exec_store hok⟩, exec_store_fault⟩
  | push n => cases h; exact ⟨fun hok => ⟨_, exec_push hok⟩, exec_push_fault⟩
  | call addr30 => cases h; exact ⟨fun hok => ⟨_, exec_call hok⟩, exec_call_fault⟩
  | callr m => cases h; exact ⟨fun hok => ⟨_, exec_callr hok⟩, exec_callr_fault⟩
  | pop d => cases h; exact ⟨fun hok => ⟨_, exec_pop hok⟩, exec_pop_fault⟩
  | ret => cases h; exact ⟨fun hok => ⟨_, exec_pop hok⟩, exec_pop_fault (d := pcReg)⟩
  | _ => cases h

/-- Settles O12: by whether the instruction is well-formed and whether it accesses memory. -/
theorem completesUnlessForbidden : Obligations.CompletesUnlessForbidden := by
  refine fun i s => ⟨fun hw hp => ?_, fun hw => exec_refused hw s⟩
  cases h : accessed s i with
  | none => exact exec_completes_of_no_access hw h
  | some access => exact (exec_of_access hw h).1 ((accessPresent_iff h).mp hp)

/-- Settles O23: R00 is checked before the access. -/
theorem loadmIntoR00Refused : Obligations.LoadmIntoR00Refused := fun m mode s => exec_loadm_pcReg s m mode

/-- Settles O28: the mode and direction are checked before the loop. -/
theorem rotSignLeftRefused : Obligations.RotSignLeftRefused := fun d n step s => exec_rot_refused s d n step

/-! ### The step -/

theorem step_of_absent {s : State} (h : s.accessOk s.pc 4 = false) : step s = .fault (.noMemory s.pc) := by
  simp [step, h]

theorem step_of_decode {s : State} {i : Instr} (h : s.accessOk s.pc 4 = true) (hi : decodeWord s.fetchWord = .ok i) :
    step s = settle s.mem (exec i s.advance) := by
  simp [step, h, hi]

theorem step_of_decodeError {s : State} {e : DecodeError} (h : s.accessOk s.pc 4 = true)
    (he : decodeWord s.fetchWord = .error e) : step s = .refused (.noInstruction e) := by
  simp [step, h, he]

/-- R22: a step that answers a next state ran the fetched instruction and noted the pipeline. -/
theorem step_next {s t : State} (h : step s = .next t) :
    ∃ i u, decodeWord s.fetchWord = .ok i ∧ exec i s.advance = .next u ∧ t = u.notePipeline s.mem := by
  cases hok : s.accessOk s.pc 4 with
  | false => cases (step_of_absent hok).symm.trans h
  | true =>
    cases hi : decodeWord s.fetchWord with
    | error e => cases (step_of_decodeError hok hi).symm.trans h
    | ok i =>
      rw [step_of_decode hok hi] at h
      cases hexec : exec i s.advance with
      | next u => rw [hexec] at h; cases h; exact ⟨i, u, rfl, hexec, rfl⟩
      | fault f => rw [hexec] at h; cases h
      | refused r => rw [hexec] at h; cases h

/-- A fault of the step is that of the fetch or that of the fetched instruction. -/
theorem step_fault {s : State} {f : Fault} (h : step s = .fault f) :
    s.accessOk s.pc 4 = false ∧ f = .noMemory s.pc ∨
    s.accessOk s.pc 4 = true ∧ ∃ i, decodeWord s.fetchWord = .ok i ∧ exec i s.advance = .fault f := by
  cases hok : s.accessOk s.pc 4 with
  | false => cases (step_of_absent hok).symm.trans h; exact .inl ⟨rfl, rfl⟩
  | true =>
    cases hi : decodeWord s.fetchWord with
    | error e => cases (step_of_decodeError hok hi).symm.trans h
    | ok i =>
      rw [step_of_decode hok hi] at h
      refine .inr ⟨rfl, i, rfl, ?_⟩
      cases hexec : exec i s.advance with
      | next u => rw [hexec] at h; cases h
      | fault g => rw [hexec] at h; cases h; rfl
      | refused r => rw [hexec] at h; cases h

/-- A fault of an instruction names its own access, some byte of which MEMMAP lacks. -/
theorem exec_fault {i : Instr} {s : State} {f : Fault} (h : exec i s = .fault f) :
    ∃ a n, f = .noMemory a ∧ accessed s i = some (a, n) ∧ s.accessOk a n = false := by
  cases hw : i.wellFormed with
  | false => rcases exec_refused hw s with hr | hr <;> cases hr.symm.trans h
  | true =>
    cases ha : accessed s i with
    | none =>
      obtain ⟨t, ht⟩ := exec_completes_of_no_access hw ha
      cases ht.symm.trans h
    | some access =>
      obtain ⟨a, n⟩ := access
      obtain ⟨hnext, hfault⟩ := exec_of_access hw ha
      cases hok : s.accessOk a n with
      | true =>
        obtain ⟨t, ht⟩ := hnext hok
        cases ht.symm.trans h
      | false => cases (hfault hok).symm.trans h; exact ⟨a, n, rfl, rfl, hok⟩

/-- Settles O13: a fault of the step is one of the fetch or of the instruction, and each names a missing access. -/
theorem stepFaultsOnlyOutsideMap : Obligations.StepFaultsOnlyOutsideMap := by
  have named : ∀ (s : State) (f : Fault), step s = .fault f →
      ∃ a n, f = .noMemory a ∧ ¬Present s a n ∧
        (a = s.pc ∧ n = 4 ∨
          Present s s.pc 4 ∧ ∃ i, decodeWord s.fetchWord = .ok i ∧ accessed s.advance i = some (a, n)) := by
    intro s f h
    rcases step_fault h with ⟨hok, rfl⟩ | ⟨hok, i, hi, hexec⟩
    · exact ⟨s.pc, 4, rfl, (not_present_iff ..).mpr hok, .inl ⟨rfl, rfl⟩⟩
    · obtain ⟨a, n, rfl, ha, hmiss⟩ := exec_fault hexec
      rw [accessOk_congr (advance_map s)] at hmiss
      exact ⟨a, n, rfl, (not_present_iff ..).mpr hmiss, .inr ⟨(present_iff ..).mpr hok, i, hi, ha⟩⟩
  refine ⟨named, fun s f hmap h => ?_⟩
  obtain ⟨a, n, -, hmiss, -⟩ := named s f h
  exact hmiss ((present_iff ..).mpr (accessOk_wholeSpace hmap a n))

/-- Settles O51: an access or a fetch that MEMMAP lacks a byte of stops before anything else happens. -/
theorem accessOutsideMapFaults : Obligations.AccessOutsideMapFaults :=
  ⟨fun _ _ _ _ hw h hp => (exec_of_access hw h).2 ((not_present_iff ..).mp hp),
    fun _ hp => step_of_absent ((not_present_iff ..).mp hp)⟩

/-- Settles O8: the step looks at the decoder's answer once the fetch is present. -/
theorem stepRefusesOtherWords : Obligations.StepRefusesOtherWords :=
  fun _ _ hp he => step_of_decodeError ((present_iff ..).mp hp) he

/-- Settles O7: the step is unfolded once, and the advance of R00 is one register write. -/
theorem stepRunsDecodedInstruction : Obligations.StepRunsDecodedInstruction := by
  intro s i hp hi
  have hstep := step_of_decode ((present_iff ..).mp hp) hi
  refine ⟨hstep, fun t ht => ?next, fun r hr => ?refused, ?pc, ?frame, fun hstale => fetchWord_none hstale⟩
  case next => rw [hstep, ht]; rfl
  case refused => rw [hstep, hr]; rfl
  case pc => exact advance_pc s
  case frame => exact ⟨(frame_writeReg s pcReg (s.pc + 4)).1, fun _ _ => rfl, rfl, rfl⟩

end Sys2Proof

/-! ## What every step keeps, and what the next fetch sees (spec/10_state.md, spec/20_memory.md R58, R62) -/

namespace Sys2Proof

open Sys2Proof.Machine Sys2Proof.Claims

/-! ### MEMMAP -/

theorem Effect.map {s t : State} {i : Instr} (h : Effect s i t) : t.map = s.map := by
  cases h with
  | result r hd hu hc => exact hu.map
  | compare hu => exact hu.map
  | store | jump | none | push | call | pop => rfl

/-- Settles O52: no effect touches the map, nor do the advance of R00 and the note of the pipeline. -/
theorem mapNeverChanges : Obligations.MapNeverChanges := by
  intro s t h
  obtain ⟨i, u, -, hexec, rfl⟩ := step_next h
  exact (effect_of_exec hexec).map

/-! ### The invariant (R24, R32, R50, R58) -/

theorem inv_writeReg {s : State} (h : s.Inv) (r : RegNum) (v : Word) : (s.writeReg r v).Inv := by
  obtain ⟨hpc, hzero, hmem, hmap⟩ := h
  exact ⟨pcAligned_writeReg hpc r v, reservedZero_writeReg hzero r v, hmem, hmap⟩

theorem inv_flagsOnly {s t : State} (hf : FlagsOnly s t) (h : s.Inv) : t.Inv := by
  obtain ⟨hpc, hzero, hmem, hmap⟩ := h
  refine ⟨pcAligned_flagsOnly hf hpc, reservedZero_flagsOnly hf hzero, by rw [hf.mem]; exact hmem, ?_⟩
  rw [State.memInMap, hf.mem, hf.map]
  exact hmap

theorem inv_store {s : State} (h : s.Inv) (mode : StoreMode) {a : Word}
    (hok : s.accessOk a (storeBytes mode) = true) (v : Word) : (s.withMem (storeMemory mode s.mem a v)).Inv := by
  obtain ⟨hpc, hzero, hmem, hmap⟩ := h
  exact ⟨hpc, hzero, wf_storeMemory mode hmem a v, all_has_storeMemory mode hmap a v hok⟩

theorem inv_pushWord {s : State} (h : s.Inv) (hok : s.accessOk (s.readReg spReg) 4 = true) (v : Word) :
    (s.pushWord v).Inv :=
  inv_writeReg (inv_store h .b32 hok v) _ _

theorem inv_popInto {s : State} (h : s.Inv) (d : RegNum) : (s.popInto d).Inv := inv_writeReg (inv_writeReg h _ _) _ _

theorem inv_advance {s : State} (h : s.Inv) : s.advance.Inv := inv_writeReg h pcReg (s.pc + 4)

theorem Effect.inv {s t : State} {i : Instr} (h : Effect s i t) (hs : s.Inv) : t.Inv := by
  cases h with
  | result r hd hu hc => exact inv_writeReg (inv_flagsOnly hu hs) _ _
  | compare hu => exact inv_flagsOnly hu hs
  | store v hok => exact inv_store hs _ hok v
  | jump v hw => exact inv_writeReg hs _ _
  | none => exact hs
  | push v hok => exact inv_pushWord hs hok v
  | call v target hw hst hok => exact inv_writeReg (inv_pushWord hs hok v) _ _
  | pop hw => exact inv_popInto hs _

/-- Settles O10: the advance of R00 and every effect keep the invariant, and the pipeline is no part of it. -/
theorem stepKeepsInvariant : Obligations.StepKeepsInvariant := by
  intro s t hs h
  obtain ⟨i, u, -, hexec, rfl⟩ := step_next h
  exact (effect_of_exec hexec).inv (inv_advance hs)

/-- R41: neither the map nor the contents reach a register, so R00 and R02 are those of the reset state. -/
theorem start_registers (map : MemMap) (contents : Memory) :
    (State.start map contents).pcAligned = true ∧ (State.start map contents).reservedZero = true ∧
    (State.start map contents).flag .ei = false :=
  (by decide : State.reset.pcAligned = true ∧ State.reset.reservedZero = true ∧ State.reset.flag .ei = false)

/-- Settles O11: the registers after reset are fixed, and memory is what the contents and the map are. -/
theorem resetMeetsInvariant : Obligations.ResetMeetsInvariant := by
  have hstart : ∀ (map : MemMap) (contents : Memory), contents.wf = true → (∀ c ∈ contents, map.has c.1 = true) →
      (State.start map contents).Inv ∧ (State.start map contents).flag .ei = false := by
    intro map contents hwf hmap
    obtain ⟨hpc, hzero, hei⟩ := start_registers map contents
    exact ⟨⟨hpc, hzero, hwf, List.all_eq_true.mpr hmap⟩, hei⟩
  obtain ⟨hreset, hei⟩ := hstart wholeSpace [] rfl (by simp)
  refine ⟨⟨hreset, hei, rfl⟩, fun map contents hwf hmap => ?_⟩
  obtain ⟨hinv, hei⟩ := hstart map contents hwf hmap
  exact ⟨hinv, hei, rfl, rfl⟩

/-! ### The next fetch (R62, R294) -/

theorem doubleWordAt_eq (s : State) (a : Word) : doubleWordAt s a = s.mem.read32 a := rfl

/-- The bytes of a word put together from four. -/
theorem extractLsb'_four_bytes (b3 b2 b1 b0 : Byte) :
    (b3 ++ b2 ++ b1 ++ b0 : Word).extractLsb' 24 8 = b3 ∧ (b3 ++ b2 ++ b1 ++ b0 : Word).extractLsb' 16 8 = b2 ∧
    (b3 ++ b2 ++ b1 ++ b0 : Word).extractLsb' 8 8 = b1 ∧ (b3 ++ b2 ++ b1 ++ b0 : Word).extractLsb' 0 8 = b0 := by
  refine ⟨?_, ?_, ?_, ?_⟩ <;> exact extractLsb'_eq_of_toNat (by simp only [toNat_append_eq_add]; omega)

/-- Each byte of a mixed word is a byte of one of the two. -/
theorem extractLsb'_mixBytes (pick : BitVec 4) (old new : Word) {k : Nat} (hk : k < 4) :
    (mixBytes pick old new).extractLsb' (8 * k) 8 = old.extractLsb' (8 * k) 8 ∨
    (mixBytes pick old new).extractLsb' (8 * k) 8 = new.extractLsb' (8 * k) 8 := by
  obtain ⟨h3, h2, h1, h0⟩ := extractLsb'_four_bytes
    (if pick.getLsbD 3 then old.extractLsb' 24 8 else new.extractLsb' 24 8)
    (if pick.getLsbD 2 then old.extractLsb' 16 8 else new.extractLsb' 16 8)
    (if pick.getLsbD 1 then old.extractLsb' 8 8 else new.extractLsb' 8 8)
    (if pick.getLsbD 0 then old.extractLsb' 0 8 else new.extractLsb' 0 8)
  rw [mixBytes]
  match k with
  | 0 => rw [h0]; exact ite_eq_or_eq ..
  | 1 => rw [h1]; exact ite_eq_or_eq ..
  | 2 => rw [h2]; exact ite_eq_or_eq ..
  | 3 => rw [h3]; exact ite_eq_or_eq ..

/-- Settles O9: the pipeline holds the 4 bytes as they were before the step, and only where the step changed them. -/
theorem fetchSeesOldOrNewBytes : Obligations.FetchSeesOldOrNewBytes := by
  intro s t h
  obtain ⟨i, u, -, -, rfl⟩ := step_next h
  simp only [doubleWordAt_eq, notePipeline_pc, notePipeline_mem]
  by_cases hsame : s.mem.read32 u.pc = u.mem.read32 u.pc
  · have hfetch : (u.notePipeline s.mem).fetchWord = u.mem.read32 u.pc :=
      fetchWord_none (by rw [notePipeline_stale, if_pos hsame])
    exact ⟨fun k _ => .inr (by rw [hfetch]), fun _ => hfetch⟩
  · have hfetch := fetchWord_some (s := u.notePipeline s.mem) (by rw [notePipeline_stale, if_neg hsame])
    exact ⟨fun k hk => by rw [hfetch]; exact extractLsb'_mixBytes _ _ _ hk, fun e => absurd e hsame⟩

/-! ### The flags register (R30) -/

/-- Settles O19: a flag is its bit of R02 as read, and the mask of R02 clears the others. -/
theorem flagsRegisterLayout : Obligations.FlagsRegisterLayout := by
  intro s
  have hflag : ∀ f : Flag, (s.readReg 2).getLsbD f.bit = s.flag f := fun f => (flag_eq_readReg s f).symm
  refine ⟨hflag .z, hflag .s8, hflag .s16, hflag .s32, hflag .o8, hflag .o16, hflag .o32, hflag .c8, hflag .c16,
    hflag .c32, hflag .p, hflag .ei, fun i h11 h30 => ?zeros, fun _ => ⟨rfl, rfl, rfl, rfl, rfl, rfl⟩⟩
  case zeros =>
    change (s.regs[2] &&& flagsMask).getLsbD i = false
    rw [BitVec.getLsbD_and, getLsbD_flagsMask i (by omega), decide_eq_false (by omega), Bool.and_false]

end Sys2Proof

/-! ## A result with its flags, in the statements' vocabulary (spec/10_state.md R35, R36) -/

namespace Sys2Proof

open Sys2Proof.Machine Sys2Proof.Claims

theorem onesCount_eq_card (r : Word) :
    onesCount r = (Finset.univ.filter fun i : Fin 32 => r.getLsbD i.val = true).card := by
  change _ = ((List.finRange 32).filter fun i : Fin 32 => decide (r.getLsbD i.val = true)).length
  rw [onesCount, ← List.map_coe_finRange_eq_range, List.countP_map, List.countP_eq_length_filter]
  simp only [Bool.decide_eq_true]
  rfl

/-- R35: P is set when the number of ones is even. -/
theorem parityEven_iff (r : Word) :
    parityEven r = true ↔ Even (Finset.univ.filter fun i : Fin 32 => r.getLsbD i.val = true).card := by
  rw [parityEven, beq_iff_eq, onesCount_eq_card, Nat.even_iff]

/-- The flags `flags_result` sets (R35). -/
def valueFlags : List Flag := [.z, .p, .s8, .s16, .s32]

/-- Flags that are those of `flags_result` are the flags of the result. -/
theorem resultFlags_of_valueFlags {s t : State} {r : Word}
    (hvalue : ∀ g ∈ valueFlags, t.flag g = (s.flagsResult r).flag g) (hei : t.flag .ei = s.flag .ei) :
    ResultFlags s t r := by
  simp only [valueFlags, List.forall_mem_cons, flag_flagsResult] at hvalue
  obtain ⟨hz, hp, h8, h16, h32, -⟩ := hvalue
  exact ⟨by rw [hz, beq_iff_eq], by rw [hp, parityEven_iff], h8, h16, h32, hei⟩

/-- After a second flag update the flags of the result are still its own. -/
theorem flagsResult_valueFlags (s u : State) (r : Word) :
    ∀ g ∈ valueFlags, (u.flagsResult r).flag g = (s.flagsResult r).flag g := by
  simp [valueFlags, flag_flagsResult]

theorem frame_flagsOnly {s t : State} (h : FlagsOnly s t) : Frame [2] s t :=
  ⟨fun _ hq => h.readReg (List.ne_of_not_mem_cons hq), fun _ _ => by rw [h.mem], h.stale, h.map⟩

/-- A result after a flag update: the result in Rdd, the flags of the update, nothing else. -/
theorem resultWritten_writeReg {s u : State} (h : FlagsOnly s u) (d : RegNum) (r : Word) :
    ResultWritten s (u.writeReg d r) d r := by
  obtain ⟨hread, hregs, -, hmem, hstale, hmap⟩ := writeResult_spec h d r
  refine ⟨hread, fun q hq => ?_, fun a _ => congrArg (·.read a) hmem, hstale, hmap⟩
  rw [List.mem_pair, not_or] at hq
  exact hregs q hq.1 hq.2

/-- With another destination than R02 the flags of the update stand. -/
theorem resultFlags_writeReg {s u : State} {d : RegNum} {r : Word} (h : FlagsOnly s u) (hd : d ≠ 2)
    (hvalue : ∀ g ∈ valueFlags, u.flag g = (s.flagsResult r).flag g) : ResultFlags s (u.writeReg d r) r :=
  resultFlags_of_valueFlags (fun g hg => by rw [flag_writeReg_other _ _ hd, hvalue g hg])
    (by rw [flag_writeReg_other _ _ hd, h.ei])

/-! ### The loads and the logic instructions (R100, R120) -/

/-- Value, flags and frame of a load or a logic instruction. -/
theorem loadLogicResult_claim (s : State) (d : RegNum) (operands : List Word) (r : Word) :
    ResultWritten s (s.loadLogicResult d operands r) d r ∧
    (d ≠ 2 → ResultFlags s (s.loadLogicResult d operands r) r ∧ WideCarryKept s (s.loadLogicResult d operands r)) := by
  have hu := loadLogic_flagsOnly s operands r
  obtain ⟨-, -, hflags, -⟩ := loadLogicResult_spec s d operands r
  refine ⟨resultWritten_writeReg hu d r, fun hd => ⟨?flags, ?carry⟩⟩
  case flags =>
    have hvalue : ∀ g ∈ valueFlags, g ∉ auxLogicFlags := by decide
    refine resultFlags_of_valueFlags (fun g hg => hflags hd g (hvalue g hg)) ?_
    rw [hflags hd .ei (by decide), flag_flagsResult]
  case carry =>
    constructor
    · rw [hflags hd .c32 (by decide), flag_flagsResult]
    · rw [hflags hd .o32 (by decide), flag_flagsResult]

/-! ### LOADd (R101) -/

/-- The lower half replaced, the upper kept. -/
theorem extractLsb'_append_low (old : Word) (imm : BitVec 16) :
    (old.extractLsb' 16 16 ++ imm : Word) = (old &&& 0xFFFF0000#32) ||| imm.setWidth 32 := by
  have hmask : ∀ j : Fin 32, (0xFFFF0000#32).getLsbD j.val = decide (16 ≤ j.val) := by decide
  apply BitVec.eq_of_getLsbD_eq
  intro j hj
  rw [BitVec.getLsbD_append, BitVec.getLsbD_or, BitVec.getLsbD_and, hmask ⟨j, hj⟩]
  by_cases h : j < 16
  · simp [h, hj, show ¬16 ≤ j by omega]
  · simp [h, hj, show j - 16 < 16 by omega, show 16 ≤ j by omega, show 16 + (j - 16) = j by omega]

/-- The upper half replaced, the lower kept. -/
theorem append_extractLsb'_low (old : Word) (imm : BitVec 16) :
    (imm ++ old.extractLsb' 0 16 : Word) = (old &&& 0x0000FFFF#32) ||| (imm.setWidth 32 <<< 16) := by
  have hmask : ∀ j : Fin 32, (0x0000FFFF#32).getLsbD j.val = decide (j.val < 16) := by decide
  apply BitVec.eq_of_getLsbD_eq
  intro j hj
  rw [BitVec.getLsbD_append, BitVec.getLsbD_or, BitVec.getLsbD_and, hmask ⟨j, hj⟩]
  by_cases h : j < 16
  · simp [h]
  · simp [h, show j - 16 < 16 by omega, hj]

/-- Settles O20: a load's flags and frame, with the placed or extended value in each mode. -/
theorem loaddPlacesImmediate : Obligations.LoaddPlacesImmediate := by
  intro d imm mode s
  refine ⟨_, _, exec_loadd s d imm mode, ?value, loadLogicResult_claim ..⟩
  case value =>
    cases mode with
    | low => exact extractLsb'_append_low _ _
    | high => exact append_extractLsb'_low _ _
    | signed => exact BitVec.toInt_signExtend_of_le (by decide)
    | unsigned => exact BitVec.toNat_setWidth_of_le (by decide)

/-! ### LOADr (R102) -/

/-- Settles O21: a load's flags and frame, with the extended register in each mode. -/
theorem loadrExtendsRegister : Obligations.LoadrExtendsRegister := by
  intro d n mode s
  refine ⟨_, _, exec_loadr s d n mode, ?value, loadLogicResult_claim ..⟩
  case value =>
    cases mode with
    | u8 => exact (BitVec.toNat_setWidth_of_le (by decide)).trans (BitVec.extractLsb'_toNat ..)
    | s8 => exact BitVec.toInt_signExtend_of_le (by decide)
    | u16 => exact (BitVec.toNat_setWidth_of_le (by decide)).trans (BitVec.extractLsb'_toNat ..)
    | s16 => exact BitVec.toInt_signExtend_of_le (by decide)
    | w32 => rfl

/-! ### LOADm (R103) -/

/-- Settles O22: a load's flags and frame, with the bytes read put together in each mode. -/
theorem loadmReadsBigEndian : Obligations.LoadmReadsBigEndian := by
  intro d m mode s hd hp
  refine ⟨_, _, exec_loadm hd ((accessPresent_iff (accessed_loadm ..)).mp hp), ?value, loadLogicResult_claim ..⟩
  case value =>
    cases mode with
    | u8 => exact BitVec.toNat_setWidth_of_le (by decide)
    | s8 => exact BitVec.toInt_signExtend_of_le (by decide)
    | u16 => exact (BitVec.toNat_setWidth_of_le (by decide)).trans (toNat_append_eq_add ..)
    | s16 =>
      refine (BitVec.toInt_signExtend_of_le (by decide)).trans ?_
      rw [Memory.read16, BitVec.toInt_append, Int.mul_comm]
      rfl
    | w32 => rfl

/-! ### AND, OR, XOR (R120 to R122) -/

/-- Settles O26: three results with a load's flags and frame. -/
theorem logicComputesBitwise : Obligations.LogicComputesBitwise :=
  fun d n m s => ⟨⟨_, _, exec_and s d n m, fun _ => BitVec.getLsbD_and, loadLogicResult_claim ..⟩,
    ⟨_, _, exec_or s d n m, fun _ => BitVec.getLsbD_or, loadLogicResult_claim ..⟩,
    ⟨_, _, exec_xor s d n m, fun _ => BitVec.getLsbD_xor, loadLogicResult_claim ..⟩⟩

end Sys2Proof

/-! ## STORE, and a load after it (spec/40_load_store.md R104, spec/20_memory.md R51, R52) -/

namespace Sys2Proof

open Sys2Proof.Machine Sys2Proof.Claims

/-! ### Bytes in memory -/

theorem bytesAt_one {t : State} {a : Word} {b0 : Byte} (h0 : t.mem.read8 a = b0) : BytesAt t a [b0]
  | 0, _ => by simpa [Memory.read8] using h0

theorem bytesAt_two {t : State} {a : Word} {b0 b1 : Byte} (h0 : t.mem.read8 a = b0) (h1 : t.mem.read8 (a + 1) = b1) :
    BytesAt t a [b0, b1]
  | 0, _ => by simpa [Memory.read8] using h0
  | 1, _ => h1

/-- A double word stored at an address stands there, most significant byte first. -/
theorem bytesAt_of_write32 {t : State} {m : Memory} {a v : Word} (h : t.mem = m.write32 a v) :
    BytesAt t a (bigEndian v) := by
  obtain ⟨h0, h1, h2, h3⟩ := read8_write32 m a v
  rw [← h] at h0 h1 h2 h3
  exact fun k hk => match k, hk with
    | 0, _ => (congrArg (fun b : Word => t.mem.read b.toNat) (BitVec.add_zero a)).trans h0
    | 1, _ => h1
    | 2, _ => h2
    | 3, _ => h3

/-- Bytes that read the same one by one are the same operand of any width. -/
theorem read8_of_bytesKept {a : Word} {n k : Nat} {s t : State} (h : BytesKept a n s t) (hk : k < n) :
    t.mem.read8 (a + BitVec.ofNat 32 k) = s.mem.read8 (a + BitVec.ofNat 32 k) := h k hk

theorem loadMemory_of_bytesKept {mode : LoadMode} {a : Word} {s t : State} (h : BytesKept a (loadBytes mode) s t) :
    loadMemory mode t.mem a = loadMemory mode s.mem a := by
  have h0 : t.mem.read8 a = s.mem.read8 a := by simpa using read8_of_bytesKept h (k := 0) (by cases mode <;> decide)
  cases mode with
  | u8 | s8 => simp only [loadMemory, h0]
  | u16 | s16 =>
    have h1 : t.mem.read8 (a + 1) = s.mem.read8 (a + 1) := read8_of_bytesKept h (k := 1) (by decide)
    simp only [loadMemory, Memory.read16, h0, h1]
  | w32 =>
    have h1 : t.mem.read8 (a + 1) = s.mem.read8 (a + 1) := read8_of_bytesKept h (k := 1) (by decide)
    have h2 : t.mem.read8 (a + 2) = s.mem.read8 (a + 2) := read8_of_bytesKept h (k := 2) (by decide)
    have h3 : t.mem.read8 (a + 3) = s.mem.read8 (a + 3) := read8_of_bytesKept h (k := 3) (by decide)
    simp only [loadMemory, Memory.read32, h0, h1, h2, h3]

/-! ### STORE -/

theorem store_next {n m : RegNum} {mode : StoreMode} {s t : State} (h : exec (.store n m mode) s = .next t) :
    s.accessOk (s.readReg m) (storeBytes mode) = true ∧
    t = s.withMem (storeMemory mode s.mem (s.readReg m) (s.readReg n)) := by
  cases hok : s.accessOk (s.readReg m) (storeBytes mode) with
  | false => cases (exec_store_fault hok).symm.trans h
  | true => cases (exec_store hok).symm.trans h; exact ⟨rfl, rfl⟩

/-- Settles O24: the bytes a write of each width leaves, the words by number, and mode 11 by R83. -/
theorem storeWritesAddressedBytes : Obligations.StoreWritesAddressedBytes := by
  refine ⟨fun n m mode s hp => ?effect, fun n m => ?words, fun _ _ => rfl, fun w hcode hmode => ?mode⟩
  case effect =>
    have hok := (accessPresent_iff (accessed_store s n m mode)).mp hp
    refine ⟨_, exec_store hok, ?bytes, fun _ _ => rfl, rfl, rfl⟩
    cases mode with
    | b8 => exact ⟨bytesAt_one (read8_write8 ..), fun a ha => read_write8_outside _ _ _ ha⟩
    | b16 =>
      obtain ⟨h0, h1⟩ := read8_write16 s.mem (s.readReg m) ((s.readReg n).extractLsb' 0 16)
      rw [BitVec.extractLsb'_extractLsb'_of_le (by decide)] at h0 h1
      exact ⟨bytesAt_two h0 h1, fun a ha => read_write16_outside _ _ _ ha⟩
    | b32 => exact ⟨bytesAt_of_write32 rfl, fun a ha => read_write32_outside _ _ _ ha⟩
  case words =>
    exact ⟨congrArg some (encode_eq_ofNat (.store n m .b8)), congrArg some (encode_eq_ofNat (.store n m .b16)),
      congrArg some (encode_eq_ofNat (.store n m .b32))⟩
  case mode => exact (unassignedModeWord_iff w).mp (.inr (.inl ⟨hcode, hmode⟩))

/-! ### A load of what was stored -/

theorem setWidth_extractLsb'_16 (v : Word) : (v.extractLsb' 0 16).setWidth 32 = v &&& 0x0000FFFF := by
  apply BitVec.eq_of_toNat_eq
  rw [BitVec.toNat_setWidth_of_le (by decide), BitVec.extractLsb'_toNat, BitVec.toNat_and]
  exact (Nat.and_two_pow_sub_one_eq_mod v.toNat 16).symm

theorem setWidth_extractLsb'_8 (v : Word) : (v.extractLsb' 0 8).setWidth 32 = v &&& 0x000000FF := by
  apply BitVec.eq_of_toNat_eq
  rw [BitVec.toNat_setWidth_of_le (by decide), BitVec.extractLsb'_toNat, BitVec.toNat_and]
  exact (Nat.and_two_pow_sub_one_eq_mod v.toNat 8).symm

/-- A load of as many bytes as a STORE wrote, in any state that keeps them, completes with the value memory held right
after the STORE. -/
theorem loadm_after_store {n m m' d : RegNum} {s t t' : State} {load : LoadMode} {store : StoreMode}
    (hbytes : loadBytes load = storeBytes store) (hd : d ≠ 0) (hmap : t'.map = t.map)
    (hreg : t'.readReg m' = s.readReg m) (h : exec (.store n m store) s = .next t)
    (hkept : BytesKept (s.readReg m) (loadBytes load) t t') :
    ∃ u, exec (.loadm d m' load) t' = .next u ∧
      u.readReg d = held d (loadMemory load (storeMemory store s.mem (s.readReg m) (s.readReg n)) (s.readReg m)) := by
  obtain ⟨hok, rfl⟩ := store_next h
  have hok' : t'.accessOk (t'.readReg m') (loadBytes load) = true := by
    rw [hreg, hbytes, accessOk_congr (s := s) hmap]
    exact hok
  refine ⟨_, exec_loadm hd hok', ?_⟩
  rw [(loadLogicResult_claim t' d _ _).1.1, hreg, loadMemory_of_bytesKept hkept]
  rfl

/-- Settles O25: the load reads the bytes the store left, and they are the value cut to their width. -/
theorem loadReadsBackStore : Obligations.LoadReadsBackStore := by
  intro n m m' d s t t' hd hmap hreg
  refine ⟨fun h hkept => ?w32, fun h hkept => ?u16, fun h hkept => ?u8⟩
  case w32 =>
    obtain ⟨u, hu, hread⟩ := loadm_after_store (load := .w32) rfl hd hmap hreg h hkept
    exact ⟨u, hu, by rw [hread]; exact congrArg (held d) (read32_write32 ..)⟩
  case u16 =>
    obtain ⟨u, hu, hread⟩ := loadm_after_store (load := .u16) rfl hd hmap hreg h hkept
    refine ⟨u, hu, ?_⟩
    rw [hread, loadMemory, storeMemory, read16_write16, setWidth_extractLsb'_16]
  case u8 =>
    obtain ⟨u, hu, hread⟩ := loadm_after_store (load := .u8) rfl hd hmap hreg h hkept
    refine ⟨u, hu, ?_⟩
    rw [hread, loadMemory, storeMemory, read8_write8, setWidth_extractLsb'_8]

end Sys2Proof

/-! ## The stack, calls and RET (spec/44_stack_call_nop.md) -/

namespace Sys2Proof

open Sys2Proof.Machine Sys2Proof.Claims

/-! ### A push -/

/-- What PUSH, CALL and CALLr leave: `v` on top of the stack of `s`, R01 above it, no other byte changed. -/
structure Pushed (s t : State) (v : Word) : Prop where
  ok : s.accessOk (s.readReg spReg) 4 = true
  mem : t.mem = s.mem.write32 (s.readReg spReg) v
  sp : t.readReg spReg = s.readReg spReg + 4
  stale : t.stale = s.stale
  map : t.map = s.map

namespace Pushed

variable {s t : State} {v : Word}

theorem bytesAt (h : Pushed s t v) : BytesAt t (s.readReg spReg) (bigEndian v) := bytesAt_of_write32 h.mem

theorem memKeptOutside (h : Pushed s t v) : MemKeptOutside (span (s.readReg spReg) 4) s t := by
  intro a ha
  rw [h.mem, read_write32_outside _ _ _ ha]

/-- A jump after the push leaves the stack. -/
theorem writeReg_pc (h : Pushed s t v) (target : Word) : Pushed s (t.writeReg pcReg target) v :=
  ⟨h.ok, h.mem, (readReg_writeReg_other t target (by decide)).trans h.sp, h.stale, h.map⟩

end Pushed

theorem pushed_pushWord {s : State} (hok : s.accessOk (s.readReg spReg) 4 = true) (v : Word) :
    Pushed s (s.pushWord v) v := by
  obtain ⟨hsp, -, hmem, hstale, hmap, -⟩ := pushWord_spec s v
  exact ⟨hok, hmem, hsp, hstale, hmap⟩

theorem regsKept_pushWord (s : State) (v : Word) : RegsKept [1] s (s.pushWord v) :=
  fun q hq => (pushWord_spec s v).2.1 q (List.ne_of_not_mem_cons hq)

/-- A jump after a push changes R00 and R01 alone. -/
theorem regsKept_pushWord_writeReg_pc (s : State) (v target : Word) :
    RegsKept [0, 1] s ((s.pushWord v).writeReg pcReg target) := by
  intro q hq
  rw [List.mem_pair, not_or] at hq
  exact (readReg_writeReg_other _ _ hq.1).trans (regsKept_pushWord s v q (by simpa using hq.2))

theorem push_next {n : RegNum} {s t : State} (h : exec (.push n) s = .next t) :
    s.accessOk (s.readReg spReg) 4 = true ∧ t = s.pushWord (s.readReg n) := by
  cases hok : s.accessOk (s.readReg spReg) 4 with
  | false => cases (exec_push_fault hok).symm.trans h
  | true => cases (exec_push hok).symm.trans h; exact ⟨rfl, rfl⟩

/-- CALL and CALLr push the address of the next instruction. -/
theorem call_next {i : Instr} {s t : State} (hi : (∃ addr30, i = .call addr30) ∨ ∃ m, i = .callr m)
    (h : exec i s = .next t) : Pushed s t (s.readReg pcReg) := by
  cases hok : s.accessOk (s.readReg spReg) 4 with
  | false =>
    rcases hi with ⟨addr30, rfl⟩ | ⟨m, rfl⟩
    · cases (exec_call_fault hok).symm.trans h
    · cases (exec_callr_fault hok).symm.trans h
  | true =>
    rcases hi with ⟨addr30, rfl⟩ | ⟨m, rfl⟩
    · cases (exec_call hok).symm.trans h; exact (pushed_pushWord hok _).writeReg_pc _
    · cases (exec_callr hok).symm.trans h; exact (pushed_pushWord hok _).writeReg_pc _

/-- R180: the word of PUSH, for each of the 32 registers. -/
theorem encode_push_eq_or (n : RegNum) : encode (.push n) = 0xE4000300 ||| (numBits n).setWidth 32 <<< 14 := by
  revert n; decide

/-- Settles O42: a push of Rnn. -/
theorem pushStoresThenIncrements : Obligations.PushStoresThenIncrements := by
  refine ⟨fun n s hp => ?_, fun n => congrArg some (encode_push_eq_or n), congrArg some (encode_push_eq_or 31)⟩
  have hok := (accessPresent_iff rfl).mp hp
  have h := pushed_pushWord hok (s.readReg n)
  exact ⟨_, exec_push hok, h.bytesAt, h.memKeptOutside, h.sp, regsKept_pushWord s _, h.stale, h.map⟩

/-- Settles O44: a push of the next instruction's address, then a jump to a multiple of 4. -/
theorem callPushesReturnAddress : Obligations.CallPushesReturnAddress := by
  refine ⟨fun addr30 s hp => ?_, fun _ => rfl, assemble_call _⟩
  have hok := (accessPresent_iff rfl).mp hp
  have h := (pushed_pushWord hok (s.readReg pcReg)).writeReg_pc (absoluteTarget addr30)
  refine ⟨_, exec_call hok, h.bytesAt, h.memKeptOutside, h.sp, ?target, regsKept_pushWord_writeReg_pc s _ _, h.stale,
    h.map⟩
  case target => exact (congrArg BitVec.toNat (readReg_pc_of_jmpd addr30 _)).trans (toNat_absoluteTarget addr30)

/-- Settles O45: a push of the next instruction's address, then a jump to the old Rmm. -/
theorem callrPushesReturnAddress : Obligations.CallrPushesReturnAddress := by
  intro m s hp
  have hok := (accessPresent_iff rfl).mp hp
  have h := (pushed_pushWord hok (s.readReg pcReg)).writeReg_pc (s.readReg m)
  exact ⟨_, exec_callr hok, h.bytesAt, h.memKeptOutside, h.sp, readReg_writeReg_same _ pcReg _,
    regsKept_pushWord_writeReg_pc s _ _, h.stale, h.map⟩

/-! ### A pop -/

/-- What POP leaves, RET as POP R00 included. -/
theorem popInto_claim (s : State) (d : RegNum) :
    (s.popInto d).readReg d = held d (doubleWordAt s (s.readReg 1 - 4)) ∧
    (d ≠ 1 → (s.popInto d).readReg 1 = s.readReg 1 - 4) ∧ Frame [d, 1] s (s.popInto d) := by
  obtain ⟨hread, hsp, hregs, hmem, hstale, hmap, -⟩ := popInto_spec s d
  refine ⟨hread, hsp, fun q hq => ?_, fun a _ => congrArg (·.read a) hmem, hstale, hmap⟩
  rw [List.mem_pair, not_or] at hq
  exact hregs q hq.1 hq.2

/-- Settles O43: a pop into Rdd. -/
theorem popDecrementsThenLoads : Obligations.PopDecrementsThenLoads :=
  fun d s hp => ⟨_, exec_pop ((accessPresent_iff rfl).mp hp), popInto_claim s d⟩

/-- Settles O46: RET is a pop into R00. -/
theorem retIsPopR00 : Obligations.RetIsPopR00 := by
  refine ⟨fun s hp => ?_, fun s => (exec_ret_eq_pop s).symm, decodeWord_encode .ret, decodeWord_encode (.pop 0)⟩
  obtain ⟨hread, hsp, hframe⟩ := popInto_claim s 0
  exact ⟨_, exec_pop ((accessPresent_iff rfl).mp hp), hread, hsp (by decide), hframe⟩

/-! ### A pop after a push -/

/-- In any state that keeps R01 and the slot, a POP after a push gives the pushed value and R01 back. -/
theorem Pushed.pop {s t t' : State} {v : Word} (h : Pushed s t v) (hmap : t'.map = t.map)
    (hsp : t'.readReg 1 = t.readReg 1) (hkept : BytesKept (s.readReg 1) 4 t t') (d : RegNum) :
    ∃ u, exec (.pop d) t' = .next u ∧ u.readReg d = held d v ∧ (d ≠ 1 → u.readReg 1 = s.readReg 1) ∧
      Frame [d, 1] t' u := by
  have htop : t'.readReg 1 - 4 = s.readReg 1 := by
    rw [hsp]
    exact (congrArg (· - 4) h.sp).trans (BitVec.add_sub_cancel _ _)
  have hok : t'.accessOk t'.topAddress 4 = true := by
    rw [accessOk_congr (hmap.trans h.map)]
    exact (congrArg (s.accessOk · 4) htop).trans h.ok
  have hvalue : doubleWordAt t' (t'.readReg 1 - 4) = v := by
    have hread : t'.mem.read32 (s.readReg 1) = t.mem.read32 (s.readReg 1) :=
      loadMemory_of_bytesKept (mode := .w32) hkept
    rw [htop, doubleWordAt_eq, hread, h.mem]
    exact read32_write32 ..
  obtain ⟨hread, hregs, hframe⟩ := popInto_claim t' d
  exact ⟨_, exec_pop hok, by rw [hread, hvalue], fun hd => (hregs hd).trans htop, hframe⟩

/-- Settles O48: the POP gives back what was pushed, and each frame is followed back to the state before the PUSH. -/
theorem popUndoesPush : Obligations.PopUndoesPush := by
  intro n d s t t' h hmap hsp hkept
  obtain ⟨hok, rfl⟩ := push_next h
  have hpush := pushed_pushWord hok (s.readReg n)
  obtain ⟨u, hu, hread, hsp', hframe⟩ := hpush.pop hmap hsp hkept d
  have ⟨hregs', hmem', _⟩ := hframe
  refine ⟨u, hu, hread, hsp', hframe, fun hregs hmem => ⟨fun q hq => ?regs, fun a ha => ?mem⟩⟩
  case regs =>
    rw [List.mem_pair, not_or] at hq
    by_cases h1 : q = 1
    · subst h1
      exact hsp' (Ne.symm hq.2)
    · calc u.readReg q
        _ = t'.readReg q := hregs' q (by simp [hq.2, h1])
        _ = (s.pushWord (s.readReg n)).readReg q := hregs q (by simp [hq.1])
        _ = s.readReg q := regsKept_pushWord s _ q (by simp [h1])
  case mem =>
    calc u.mem.read a
      _ = t'.mem.read a := hmem' a List.not_mem_nil
      _ = (s.pushWord (s.readReg n)).mem.read a := hmem a List.not_mem_nil
      _ = s.mem.read a := hpush.memKeptOutside a ha

/-- Settles O49: RET is POP R00, of the address the call pushed. -/
theorem retReturnsFromCall : Obligations.RetReturnsFromCall := by
  intro i s t t' hi h hmap hsp hkept
  obtain ⟨u, hu, hread, hsp', hframe⟩ := (call_next hi h).pop hmap hsp hkept 0
  exact ⟨u, hu, hread, hsp' (by decide), hframe⟩

end Sys2Proof

/-! ## Arithmetic (spec/42_arithmetic.md, spec/10_state.md R29) -/

namespace Sys2Proof

open Sys2Proof.Machine Sys2Proof.Claims

/-! ### Carries and overflows in the statements' vocabulary (R29) -/

/-- The flags `flags_add` and `flags_sub` set (R29). -/
def carryFlags : List Flag := [.c8, .c16, .c32, .o8, .o16, .o32]

theorem outsideSigned_iff (n : Nat) (x : Int) :
    outsideSigned n x = true ↔ ¬(-2 ^ (n - 1) ≤ x ∧ x ≤ 2 ^ (n - 1) - 1) := by
  rw [outsideSigned, Bool.or_eq_true, decide_eq_true_eq, decide_eq_true_eq, not_and_or, not_le, not_le]

theorem addFlagsAt_flags (n : Nat) (a b : Word) (cin : Bool) :
    AddFlagsAt n a b cin (addCarry n a b cin) (addOverflow n a b cin) := by
  constructor
  · rw [addCarry, decide_eq_true_eq, BitVec.toNat_setWidth, BitVec.toNat_setWidth]
  · rw [addOverflow, outsideSigned_iff, BitVec.toInt_setWidth, BitVec.toInt_setWidth]

theorem subFlagsAt_flags (n : Nat) (a b : Word) (bin : Bool) :
    SubFlagsAt n a b bin (subBorrow n a b bin) (subOverflow n a b bin) := by
  constructor
  · rw [subBorrow, decide_eq_true_eq, BitVec.toNat_setWidth, BitVec.toNat_setWidth]
  · rw [subOverflow, outsideSigned_iff, BitVec.toInt_setWidth, BitVec.toInt_setWidth]

theorem addFlags_of_carryFlags {s t : State} {a b : Word} {cin : Bool}
    (h : ∀ g ∈ carryFlags, t.flag g = (s.flagsAdd a b cin).flag g) : AddFlags t a b cin := by
  simp only [carryFlags, List.forall_mem_cons, flag_flagsAdd] at h
  obtain ⟨hc8, hc16, hc32, ho8, ho16, ho32, -⟩ := h
  rw [AddFlags, hc8, hc16, hc32, ho8, ho16, ho32]
  exact ⟨addFlagsAt_flags .., addFlagsAt_flags .., addFlagsAt_flags ..⟩

theorem subFlags_of_carryFlags {s t : State} {a b : Word} {bin : Bool}
    (h : ∀ g ∈ carryFlags, t.flag g = (s.flagsSub a b bin).flag g) : SubFlags t a b bin := by
  simp only [carryFlags, List.forall_mem_cons, flag_flagsSub] at h
  obtain ⟨hc8, hc16, hc32, ho8, ho16, ho32, -⟩ := h
  rw [SubFlags, hc8, hc16, hc32, ho8, ho16, ho32]
  exact ⟨subFlagsAt_flags .., subFlagsAt_flags .., subFlagsAt_flags ..⟩

/-- `flags_result` leaves the carries and overflows. -/
theorem flagsResult_carryFlags (u : State) (r : Word) : ∀ g ∈ carryFlags, (u.flagsResult r).flag g = u.flag g := by
  simp [carryFlags, flag_flagsResult]

/-! ### ADDr and ADDd (R140, R141, R143) -/

theorem bitWord_eq_bitNumber (b : Bool) : bitWord b = bitNumber b := by cases b <;> rfl

theorem addrValue_eq_addrResult (mode : AddMode) (a b : Word) (c : Bool) :
    addrValue mode a b c = addrResult mode a b c := by
  cases mode
  case add | sub | cmp => rfl
  case addc | subc => simp only [addrValue, addrResult, bitWord_eq_bitNumber]

theorem addrFlags_of_carryFlags {s t : State} {mode : AddMode} {a b : Word} {c : Bool}
    (h : ∀ g ∈ carryFlags, t.flag g = (s.addrFlags mode a b c).flag g) : AddrFlags mode t a b c := by
  cases mode
  case add | addc => exact addFlags_of_carryFlags h
  case sub | cmp | subc => exact subFlags_of_carryFlags h

/-- Value, flags and frame of an addition or subtraction: carries and overflows first, then the flags of the result,
then the result. -/
theorem carry_then_result_claim {s u : State} (hu : FlagsOnly s u) (d : RegNum) (r : Word) :
    ResultWritten s ((u.flagsResult r).writeReg d r) d r ∧
    (d ≠ 2 → ResultFlags s ((u.flagsResult r).writeReg d r) r ∧
      ∀ g ∈ carryFlags, ((u.flagsResult r).writeReg d r).flag g = u.flag g) := by
  have hflags := hu.trans (flagsResult_flagsOnly u r)
  refine ⟨resultWritten_writeReg hflags d r, fun hd => ⟨?_, fun g hg => ?_⟩⟩
  · exact resultFlags_writeReg hflags hd (flagsResult_valueFlags s u r)
  · rw [flag_writeReg_other _ _ hd, flagsResult_carryFlags u r g hg]

/-- Settles O29: carries and overflows, flags of the result and the result, in each mode. -/
theorem addrAddsAndSubtracts : Obligations.AddrAddsAndSubtracts := by
  intro d n m mode s hmode
  refine ⟨_, exec_addr hmode, ?_⟩
  rw [addrValue_eq_addrResult]
  obtain ⟨hresult, hflags⟩ := carry_then_result_claim
    (addrFlags_flagsOnly s mode (s.readReg n) (s.readReg m) (s.flag .c32)) d
    (addrResult mode (s.readReg n) (s.readReg m) (s.flag .c32))
  exact ⟨hresult, fun hd => ⟨(hflags hd).1, addrFlags_of_carryFlags (hflags hd).2⟩⟩

/-- Settles O30: the flags of a subtraction, with no result after them. -/
theorem compareWritesFlagsOnly : Obligations.CompareWritesFlagsOnly := by
  intro d n m s
  have hu := flagsSub_flagsOnly s (s.readReg n) (s.readReg m) false
  have hflags := hu.trans (flagsResult_flagsOnly _ (s.readReg n - s.readReg m))
  exact ⟨_, exec_addr_cmp s d n m, frame_flagsOnly hflags,
    resultFlags_of_valueFlags (flagsResult_valueFlags s _ _) hflags.ei,
    subFlags_of_carryFlags (flagsResult_carryFlags _ _)⟩

/-- Settles O31: an addition of the sign-extended value. -/
theorem adddAddsSignedImmediate : Obligations.AdddAddsSignedImmediate := by
  intro d n value s
  obtain ⟨hresult, hflags⟩ := carry_then_result_claim (flagsAdd_flagsOnly s (s.readReg n) (addImmediate value) false) d
    (s.readReg n + addImmediate value)
  exact ⟨_, exec_addd s d n value, hresult, fun hd => ⟨(hflags hd).1, addFlags_of_carryFlags (hflags hd).2⟩⟩

/-! ### MUL and DIV (R144 to R147) -/

/-- Drawn flags other than those of the result leave these. -/
theorem drawFlags_valueFlags (s : State) (r : Word) (source : Nat → List Word → BitVec 11) (operands : List Word)
    {flags : List Flag} (h : ∀ g ∈ valueFlags, g ∉ flags) :
    ∀ g ∈ valueFlags, ((s.flagsResult r).drawFlags source operands flags).flag g = (s.flagsResult r).flag g :=
  fun g hg => by rw [flag_drawFlags, if_neg (h g hg)]

/-- Value, flags and frame of a result with drawn carries and overflows. -/
theorem drawn_result_claim (s : State) (d : RegNum) (r : Word) (source : Nat → List Word → BitVec 11)
    (operands : List Word) :
    ResultWritten s (((s.flagsResult r).drawFlags source operands auxMulDivFlags).writeReg d r) d r ∧
    (d ≠ 2 → ResultFlags s (((s.flagsResult r).drawFlags source operands auxMulDivFlags).writeReg d r) r) := by
  have hu := (flagsResult_flagsOnly s r).trans (drawFlags_flagsOnly _ source operands auxMulDivFlags (by decide))
  exact ⟨resultWritten_writeReg hu d r,
    fun hd => resultFlags_writeReg hu hd (drawFlags_valueFlags s r source operands (by decide))⟩

/-- Settles O32: the product with drawn carries and overflows. -/
theorem mulKeepsLowProduct : Obligations.MulKeepsLowProduct := by
  intro d n m mode s
  obtain ⟨operands, h⟩ := exec_mul s d n m mode
  exact ⟨_, h, drawn_result_claim s d _ _ operands⟩

/-- Settles O33: quotient and remainder with drawn carries and overflows. -/
theorem divStoresQuotientAndRest : Obligations.DivStoresQuotientAndRest := by
  intro d n m mode part s hq
  obtain ⟨operands, h⟩ := exec_div s part hq
  exact ⟨_, h, drawn_result_claim s d _ _ operands⟩

/-- Settles O34: every flag is drawn, and so is the result. -/
theorem divWithoutQuotientCompletes : Obligations.DivWithoutQuotientCompletes := by
  intro d n m mode part s hq
  obtain ⟨source, operands, r, h⟩ := exec_div_noQuotient s part hq
  have hu := drawFlags_flagsOnly s source operands resultFlags (by decide)
  exact ⟨_, r, h, resultWritten_writeReg hu d r, fun hd => by rw [flag_writeReg_other _ _ hd, hu.ei]⟩

/-! ### Double words (R142) -/

theorem held_general {d : RegNum} (h0 : d ≠ 0) (h2 : d ≠ 2) (r : Word) : held d r = r := storedIn_general h0 h2 r

theorem toNat_bitNumber (b : Bool) : (bitNumber b).toNat = b.toNat := by cases b <;> rfl

/-- The high halves with the carry of the low ones, above the sum of these, are the 64-bit sum. -/
theorem append_add_carry (ah al bh bl : Word) :
    (ah + bh + bitNumber (addCarry 32 al bl false)) ++ (al + bl) = (ah ++ al) + (bh ++ bl) := by
  apply BitVec.eq_of_toNat_eq
  by_cases h : 2 ^ 32 ≤ al.toNat + bl.toNat
  · have hc : addCarry 32 al bl false = true := by simpa [addCarry] using h
    simp only [toNat_append_eq_add, BitVec.toNat_add, hc, toNat_bitNumber, Bool.toNat_true]
    omega
  · have hc : addCarry 32 al bl false = false := by simpa [addCarry] using h
    simp only [toNat_append_eq_add, BitVec.toNat_add, hc, toNat_bitNumber, Bool.toNat_false]
    omega

/-- The high halves with the borrow of the low ones, above the difference of these, are the 64-bit difference. -/
theorem append_sub_borrow (ah al bh bl : Word) :
    (ah - bh - bitNumber (subBorrow 32 al bl false)) ++ (al - bl) = (ah ++ al) - (bh ++ bl) := by
  apply BitVec.eq_of_toNat_eq
  by_cases h : al.toNat < bl.toNat
  · have hc : subBorrow 32 al bl false = true := by simpa [subBorrow] using h
    simp only [toNat_append_eq_add, BitVec.toNat_sub, hc, toNat_bitNumber, Bool.toNat_true]
    omega
  · have hc : subBorrow 32 al bl false = false := by simpa [subBorrow] using h
    simp only [toNat_append_eq_add, BitVec.toNat_sub, hc, toNat_bitNumber, Bool.toNat_false]
    omega

/-- What ADDr in a mode other than `c` leaves, with a destination that keeps every value. -/
theorem addr_next {d n m : RegNum} {mode : AddMode} {s t : State} (hmode : mode ≠ .cmp) (h0 : d ≠ 0) (h2 : d ≠ 2)
    (h : exec (.addr d n m mode) s = .next t) :
    t.readReg d = addrResult mode (s.readReg n) (s.readReg m) (s.flag .c32) ∧
    t.flag .c32 = (s.addrFlags mode (s.readReg n) (s.readReg m) (s.flag .c32)).flag .c32 ∧ RegsKept [d, 2] s t := by
  cases (exec_addr hmode).symm.trans h
  rw [addrValue_eq_addrResult]
  obtain ⟨⟨hread, hregs, -⟩, hflags⟩ := carry_then_result_claim
    (addrFlags_flagsOnly s mode (s.readReg n) (s.readReg m) (s.flag .c32)) d
    (addrResult mode (s.readReg n) (s.readReg m) (s.flag .c32))
  exact ⟨by rw [hread, held_general h0 h2], (hflags h2).2 .c32 (by decide), hregs⟩

/-- An ADDr on low halves, then one on high halves in a state that keeps C32 and the low result: the second takes the
carry of the first. -/
theorem addr_chain {lowMode highMode : AddMode} (hlowMode : lowMode ≠ .cmp) (hhighMode : highMode ≠ .cmp)
    {lo hi alo ahi blo bhi : RegNum} {s t t' : State} (hlo0 : lo ≠ 0) (hlo2 : lo ≠ 2) (hhi0 : hi ≠ 0) (hhi2 : hi ≠ 2)
    (hne : lo ≠ hi) (h : exec (.addr lo alo blo lowMode) s = .next t) (hcarry : t'.flag .c32 = t.flag .c32)
    (hlow : t'.readReg lo = t.readReg lo) :
    ∃ u, exec (.addr hi ahi bhi highMode) t' = .next u ∧
      u.readReg hi = addrResult highMode (t'.readReg ahi) (t'.readReg bhi)
        ((s.addrFlags lowMode (s.readReg alo) (s.readReg blo) (s.flag .c32)).flag .c32) ∧
      u.readReg lo = addrResult lowMode (s.readReg alo) (s.readReg blo) (s.flag .c32) ∧ RegsKept [lo, 2] s t := by
  obtain ⟨hread, hc, hkept⟩ := addr_next hlowMode hlo0 hlo2 h
  have hexec := exec_addr (s := t') (d := hi) (n := ahi) (m := bhi) hhighMode
  obtain ⟨hread', -, hkept'⟩ := addr_next hhighMode hhi0 hhi2 hexec
  refine ⟨_, hexec, ?_, ?_, hkept⟩
  · rw [hread', hcarry, hc]
  · rw [hkept' lo (by simp [hne, hlo2]), hlow, hread]

/-- Settles O35: the second addition takes the carry of the first. -/
theorem carryChainAddsDoubleWords : Obligations.CarryChainAddsDoubleWords := by
  intro lo hi alo ahi blo bhi s t t' hlo0 hlo2 hhi0 hhi2 hne h hcarry hlow
  obtain ⟨u, hu, hhigh, hlow', hkept⟩ := addr_chain (highMode := .addc) (ahi := ahi) (bhi := bhi)
    (by decide) (by decide)
    hlo0 hlo2 hhi0 hhi2 hne h hcarry hlow
  have hsum : u.readReg hi ++ u.readReg lo =
      (t'.readReg ahi ++ s.readReg alo) + (t'.readReg bhi ++ s.readReg blo) := by
    rw [hhigh, hlow', State.addrFlags, flag_flagsAdd]
    exact append_add_carry ..
  refine ⟨u, hu, hsum, fun ha hb ha' hb' => ?_⟩
  rw [hsum, ha, hb, hkept ahi ha', hkept bhi hb']

/-- Settles O36: the second subtraction takes the borrow of the first. -/
theorem borrowChainSubtractsDoubleWords : Obligations.BorrowChainSubtractsDoubleWords := by
  intro lo hi alo ahi blo bhi s t t' hlo0 hlo2 hhi0 hhi2 hne h hcarry hlow
  obtain ⟨u, hu, hhigh, hlow', hkept⟩ := addr_chain (highMode := .subc) (ahi := ahi) (bhi := bhi)
    (by decide) (by decide)
    hlo0 hlo2 hhi0 hhi2 hne h hcarry hlow
  have hdiff : u.readReg hi ++ u.readReg lo =
      (t'.readReg ahi ++ s.readReg alo) - (t'.readReg bhi ++ s.readReg blo) := by
    rw [hhigh, hlow', State.addrFlags, flag_flagsSub]
    exact append_sub_borrow ..
  refine ⟨u, hu, hdiff, fun ha hb ha' hb' => ?_⟩
  rw [hdiff, ha, hb, hkept ahi ha', hkept bhi hb']

end Sys2Proof

/-! ## ROT and CPYB (spec/41_logic_rotate.md R123 to R127, spec/43_bit_and_jump.md R160, R161) -/

namespace Sys2Proof

open Sys2Proof.Machine Sys2Proof.Claims

/-! ### The closed form of the loop (R124, R127 a) -/

theorem getLsbD_rotateLeft_of_lt {w k j : Nat} (x : BitVec w) (hk : k < w) (hj : j < w) :
    (x.rotateLeft k).getLsbD j = if k ≤ j then x.getLsbD (j - k) else x.getLsbD (w - k + j) := by
  rw [BitVec.getLsbD_rotateLeft_of_le hk, decide_eq_true hj, Bool.true_and]
  by_cases h : k ≤ j
  · rw [if_pos h, decide_eq_false (by omega), cond_false]
  · rw [if_neg h, decide_eq_true (by omega), cond_true]

theorem getLsbD_rotateRight_of_lt {w k j : Nat} (x : BitVec w) (hk : k < w) (hj : j < w) :
    (x.rotateRight k).getLsbD j = if j + k < w then x.getLsbD (j + k) else x.getLsbD (j + k - w) := by
  rw [BitVec.getLsbD_rotateRight_of_lt hk, decide_eq_true hj, Bool.true_and]
  by_cases h : j + k < w
  · rw [if_pos h, decide_eq_true (by omega), cond_true, Nat.add_comm]
  · rw [if_neg h, decide_eq_false (by omega), cond_false]
    congr 1
    omega

/-- The 33 bits of the rotation through the carry. -/
theorem getLsbD_carry_append (c : Bool) (v : Word) {i : Nat} (hi : i < 33) :
    (BitVec.ofBool c ++ v).getLsbD i = if i = 32 then c else v.getLsbD i := by
  rw [BitVec.getLsbD_append]
  by_cases h : i = 32
  · subst h; simp
  · rw [if_neg h, if_pos (by omega)]

/-- Going left, the loop is the rotation or the shift of its mode. -/
theorem rotLoop_left_eq_rotated {mode : RotMode} (hmode : mode ≠ .sign) {k : Nat} (hk : k < 32) (v : Word) (c : Bool) :
    (rotLoop .left mode k v c none).1 = rotated .left mode k v c := by
  apply BitVec.eq_of_getLsbD_eq
  intro j hj
  rw [rotLoop_left mode hmode k v c none hk j hj]
  cases mode with
  | rot =>
    simp only [rotated, entered, getLsbD_rotateLeft_of_lt v hk hj]
    by_cases h : k ≤ j
    · rw [if_pos h, if_pos h]
    · rw [if_neg h, if_neg h]
      congr 1
      omega
  | zero =>
    simp only [rotated, entered, BitVec.getLsbD_shiftLeft]
    by_cases h : k ≤ j
    · simp [h, hj, show ¬j < k by omega]
    · simp [h, show j < k by omega]
  | one =>
    simp only [rotated, entered, BitVec.getLsbD_shiftLeft, BitVec.getLsbD_not]
    by_cases h : k ≤ j
    · simp [h, hj, show ¬j < k by omega, show j - k < 32 by omega]
    · simp [h, hj, show j < k by omega]
  | carry =>
    simp only [rotated, entered, BitVec.getLsbD_setWidth, hj, decide_true, Bool.true_and,
      getLsbD_rotateLeft_of_lt (BitVec.ofBool c ++ v) (by omega : k < 33) (by omega : j < 33)]
    by_cases h : k ≤ j
    · rw [if_pos h, if_pos h, getLsbD_carry_append c v (by omega), if_neg (by omega)]
    · rw [if_neg h, if_neg h, getLsbD_carry_append c v (by omega)]
      by_cases hlast : k - 1 - j = 0
      · rw [if_pos hlast, if_pos (by omega)]
      · rw [if_neg hlast, if_neg (by omega)]
        congr 1
        omega
  | sign => exact absurd rfl hmode

/-- Going right, it is too, in mode sign the arithmetic shift. -/
theorem rotLoop_right_eq_rotated (mode : RotMode) {k : Nat} (hk : k < 32) (v : Word) (c : Bool) :
    (rotLoop .right mode k v c none).1 = rotated .right mode k v c := by
  apply BitVec.eq_of_getLsbD_eq
  intro j hj
  rw [rotLoop_right mode k v c none hk j hj]
  cases mode with
  | rot => simp only [rotated, entered, getLsbD_rotateRight_of_lt v hk hj]
  | zero =>
    simp only [rotated, entered, BitVec.getLsbD_ushiftRight]
    by_cases h : j + k < 32
    · rw [if_pos h, Nat.add_comm]
    · rw [if_neg h, BitVec.getLsbD_of_ge _ _ (by omega)]
  | one =>
    simp only [rotated, entered, BitVec.getLsbD_ushiftRight, BitVec.getLsbD_not]
    by_cases h : j + k < 32
    · simp [hj, Nat.add_comm]
    · simp [h, hj, show ¬k + j < 32 by omega]
  | carry =>
    simp only [rotated, entered, BitVec.getLsbD_setWidth, hj, decide_true, Bool.true_and,
      getLsbD_rotateRight_of_lt (BitVec.ofBool c ++ v) (by omega : k < 33) (by omega : j < 33)]
    by_cases h : j + k < 32
    · rw [if_pos h, if_pos (by omega), getLsbD_carry_append c v (by omega), if_neg (by omega)]
    · rw [if_neg h]
      by_cases hlast : j + k - 32 = 0
      · rw [if_pos hlast, if_pos (by omega), getLsbD_carry_append c v (by omega), if_pos (by omega)]
      · rw [if_neg hlast, if_neg (by omega), getLsbD_carry_append c v (by omega), if_neg (by omega)]
        congr 1
  | sign =>
    simp only [rotated, entered, BitVec.getLsbD_sshiftRight, BitVec.msb_eq_getLsbD_last]
    by_cases h : j + k < 32
    · simp [show ¬32 ≤ j by omega, show k + j < 32 by omega, Nat.add_comm]
    · simp [h, show ¬32 ≤ j by omega, show ¬k + j < 32 by omega]

/-- The loop in closed form, in every direction and mode with a meaning. -/
theorem rotLoop_eq_rotated {dir : RotDir} {mode : RotMode} (h : ¬(mode = .sign ∧ dir = .left)) (step : Fin 32)
    (v : Word) (c : Bool) : (rotLoop dir mode step.val v c none).1 = rotated dir mode step.val v c := by
  cases dir with
  | left => exact rotLoop_left_eq_rotated (fun e => h ⟨e, rfl⟩) step.isLt v c
  | right => exact rotLoop_right_eq_rotated mode step.isLt v c

theorem rotLoop_out (dir : RotDir) (mode : RotMode) (step : Fin 32) (v : Word) (c : Bool) :
    (rotLoop dir mode step.val v c none).2 = if step = 0 then none else some (lastOut dir step.val v) := by
  have hzero : step = 0 ↔ step.val = 0 := Fin.ext_iff
  simp only [hzero]
  cases dir with
  | left => exact rotLoop_out_left mode step.val v c none step.isLt
  | right => exact rotLoop_out_right mode step.val v c none step.isLt

/-! ### The flags of ROT (R125, R126) -/

theorem flag_rotCarry_valueFlags (s : State) (operands : List Word) (mode : RotMode) (out : Option Bool) :
    ∀ g ∈ valueFlags, (s.rotCarry operands mode out).flag g = s.flag g := by
  cases mode <;> cases out <;>
    simp [State.rotCarry, valueFlags, auxShiftFlags, flag_setFlag, flag_drawFlags]

/-- Outside mode rot C32 is the last bit shifted out, or as before. -/
theorem flag_rotCarry_c32 (s : State) (operands : List Word) {mode : RotMode} (h : mode ≠ .rot) (out : Option Bool) :
    (s.rotCarry operands mode out).flag .c32 = out.getD (s.flag .c32) := by
  cases mode with
  | rot => exact absurd rfl h
  | _ => cases out <;> simp [State.rotCarry, auxShiftFlags, flag_setFlag, flag_drawFlags]

/-- Settles O27: the value by the loop's closed form, C32 by its last output bit. -/
theorem rotShiftsByStep : Obligations.RotShiftsByStep := by
  intro d n step dir mode s hleft
  obtain ⟨operands, hexec⟩ := exec_rot s d n step hleft
  rw [rotLoop_eq_rotated hleft, rotLoop_out] at hexec
  have hu := (flagsResult_flagsOnly s (rotated dir mode step.val (s.readReg n) (s.flag .c32))).trans
    (rotCarry_flagsOnly _ operands mode (if step = 0 then none else some (lastOut dir step.val (s.readReg n))))
  refine ⟨_, hexec, resultWritten_writeReg hu d _, fun hd => ⟨?value, fun hm h0 => ?kept, fun hm h0 => ?out⟩⟩
  case value => exact resultFlags_writeReg hu hd (flag_rotCarry_valueFlags _ _ _ _)
  case kept => rw [flag_writeReg_other _ _ hd, flag_rotCarry_c32 _ _ hm, if_pos h0, Option.getD_none, flag_flagsResult]
  case out => rw [flag_writeReg_other _ _ hd, flag_rotCarry_c32 _ _ hm, if_neg h0, Option.getD_some]

/-! ### CPYB (R160, R161) -/

/-- Bit `dbit` is the bit copied, the others are 0 or as before. -/
theorem getLsbD_copyBitValue (mode : CopyMode) (old : Word) (dbit : BitNum) (b : Bool) {j : Nat} (hj : j < 32) :
    (copyBitValue mode old dbit b).getLsbD j =
      if j = dbit.val then b else match mode with
        | .clear => false
        | .keep => old.getLsbD j := by
  cases mode with
  | clear =>
    simp only [copyBitValue, bitWord, BitVec.getLsbD_shiftLeft, BitVec.getLsbD_setWidth, BitVec.getLsbD_ofBool]
    rcases Nat.lt_trichotomy j dbit.val with h | h | h
    · simp [h, Nat.ne_of_lt h]
    · simp [h]
    · simp [Nat.ne_of_gt h, show j - dbit.val ≠ 0 by omega]
  | keep => exact getLsbD_setBit old b dbit.isLt hj

/-- Settles O37: the value bit by bit, C32 set after the drawn flags. -/
theorem cpybCopiesOneBit : Obligations.CpybCopiesOneBit := by
  intro d n dbit sbit mode s
  obtain ⟨operands, hexec⟩ := exec_cpyb s d n dbit mode sbit
  have hdrawn := (flagsResult_flagsOnly s (copyBitValue mode (s.readReg d) dbit ((s.readReg n).getLsbD sbit.val))).trans
    (drawFlags_flagsOnly _ Config.flagsAuxCpyb operands auxShiftFlags (by decide))
  have hu := hdrawn.trans (setFlag_flagsOnly _ (by decide : Flag.c32 ≠ .ei) ((s.readReg n).getLsbD sbit.val))
  refine ⟨_, _, hexec, ?bit, fun j hj hne => ?others, resultWritten_writeReg hu d _, fun hd => ⟨?value, ?carry⟩⟩
  case bit => rw [getLsbD_copyBitValue _ _ _ _ dbit.isLt, if_pos rfl]
  case others =>
    refine (getLsbD_copyBitValue _ _ _ _ hj).trans ((if_neg hne).trans ?_)
    cases mode <;> rfl
  case value =>
    have hc32 : ∀ g ∈ valueFlags, g ≠ .c32 := by decide
    refine resultFlags_writeReg hu hd fun g hg => ?_
    rw [flag_setFlag, if_neg (hc32 g hg)]
    exact drawFlags_valueFlags s _ _ operands (by decide) g hg
  case carry => rw [flag_writeReg_other _ _ hd, flag_setFlag, if_pos rfl]

end Sys2Proof

/-! ## JB, the conditional jumps, and a jump to itself (spec/43_bit_and_jump.md R164 to R167, R296) -/

namespace Sys2Proof

open Sys2Proof.Machine Sys2Proof.Claims

/-! ### Multiples of 4 (R24) -/

/-- The bits R00 drops are the remainder modulo 4. -/
theorem and_not_pcMask_eq_zero_iff (v : Word) : v &&& ~~~pcMask = 0 ↔ v.toNat % 4 = 0 := by
  have hnat : (v &&& ~~~pcMask).toNat = v.toNat % 4 := Nat.and_two_pow_sub_one_eq_mod v.toNat 2
  rw [← hnat]
  exact BitVec.toNat_eq

theorem and_pcMask_of_dvd {v : Word} (h : v.toNat % 4 = 0) : v &&& pcMask = v :=
  and_pcMask_of_low_bits_zero ((and_not_pcMask_eq_zero_iff v).mpr h)

theorem pc_mod_four {s : State} (h : s.pcAligned = true) : s.pc.toNat % 4 = 0 :=
  (and_not_pcMask_eq_zero_iff s.pc).mp (beq_iff_eq.mp h)

/-- The byte offset of a JB is 4 times its signed field (R164). -/
theorem jumpOffset_eq (addr : BitVec 14) : jumpOffset addr = BitVec.ofInt 32 (4 * addr.toInt) :=
  congrArg (BitVec.ofInt 32) BitVec.toInt_append_zero

theorem jumpOffset_mod_four (addr : BitVec 14) : (jumpOffset addr).toNat % 4 = 0 := by
  rw [jumpOffset_eq, BitVec.toNat_ofInt]
  omega

theorem add_mod_four {v w : Word} (hv : v.toNat % 4 = 0) (hw : w.toNat % 4 = 0) : (v + w).toNat % 4 = 0 := by
  rw [BitVec.toNat_add]
  omega

/-! ### JB (R164) -/

theorem jumpCondition_iff (s : State) (mode : JumpMode) (v : Bool) (bit : BitNum) (n : RegNum) :
    jumpCondition s mode v bit n = true ↔ JumpTaken s mode v bit n := by
  cases mode <;> simp [jumpCondition, JumpTaken]

theorem exec_jb_of_taken {s : State} {mode : JumpMode} {v : Bool} {bit : BitNum} {n : RegNum} (addr : BitVec 14)
    (h : JumpTaken s mode v bit n) :
    exec (.jb mode v bit n addr) s = .next (s.writeReg pcReg (s.readReg pcReg + jumpOffset addr)) :=
  exec_jb_taken ((jumpCondition_iff ..).mpr h)

theorem exec_jb_of_not_taken {s : State} {mode : JumpMode} {v : Bool} {bit : BitNum} {n : RegNum} (addr : BitVec 14)
    (h : ¬JumpTaken s mode v bit n) : exec (.jb mode v bit n addr) s = .next s :=
  exec_jb_not_taken (Bool.eq_false_iff.mpr fun hc => h ((jumpCondition_iff ..).mp hc))

/-- An offset's field is the offset divided by 4 (R166 a). -/
theorem toNat_offsetField (offset : BitVec 16) : (offsetField offset).toNat = offset.toNat / 4 := by
  have hlt := offset.isLt
  rw [offsetField, BitVec.extractLsb'_toNat, Nat.shiftRight_eq_div_pow]
  omega

theorem assemble_jb (mode : JumpMode) (n : RegNum) (bit : BitNum) (v : Bool) (offset : BitVec 16) :
    AsmLine.assemble (.jb (some mode) n bit v offset) =
      some (BitVec.ofNat 32 (printedWord (.jb mode v bit n (offsetField offset)))) :=
  congrArg some (encode_eq_ofNat _)

/-- Settles O40: a sum of multiples of 4 loses no bits in R00; the words by number, the unlisted modes by R83. -/
theorem jbJumpsWhenConditionHolds : Obligations.JbJumpsWhenConditionHolds := by
  refine ⟨fun mode v bit n addr s hpc => ⟨fun h => ?taken, exec_jb_of_not_taken addr⟩, fun v bit n offset => ?words,
    fun w hcode hmode => ?modes, rfl, rfl⟩
  case taken =>
    have haligned := add_mod_four (pc_mod_four hpc) (jumpOffset_mod_four addr)
    refine ⟨_, exec_jb_of_taken addr h, ?_, frame_writeReg s pcReg _⟩
    rw [← jumpOffset_eq]
    exact (readReg_writeReg_same s pcReg _).trans (and_pcMask_of_dvd haligned)
  case words =>
    simp only [assemble_jb, printedWord, toNat_offsetField, and_self]
  case modes =>
    exact (unassignedModeWord_iff w).mp
      (.inr (.inr (.inr (.inr (.inr (.inr (.inr ⟨hcode, hmode⟩)))))))

/-! ### The flags of a comparison (R29, R167) -/

/-- The difference is taken modulo 2^32. -/
theorem toInt_sub_cases (a b : Word) :
    (a - b).toInt = a.toInt - b.toInt ∨ (a - b).toInt = a.toInt - b.toInt - 2 ^ 32 ∧ 2 ^ 31 ≤ a.toInt - b.toInt ∨
    (a - b).toInt = a.toInt - b.toInt + 2 ^ 32 ∧ a.toInt - b.toInt < -2 ^ 31 := by
  have ha := a.isLt
  have hb := b.isLt
  simp only [BitVec.toInt_eq_toNat_cond, BitVec.toNat_sub]
  split <;> split <;> split <;> omega

/-- What the flags say of two numbers after they were compared (R167). -/
structure Compared (t : State) (a b : Word) : Prop where
  z : t.flag .z = true ↔ a = b
  s32 : t.flag .s32 = true ↔ (a - b).toInt < 0
  c32 : t.flag .c32 = true ↔ a.toNat < b.toNat
  o32 : t.flag .o32 = true ↔ (a - b).toInt ≠ a.toInt - b.toInt

/-- O32 after a comparison: the difference of the numbers is not that of the words. -/
theorem subOverflow_iff (a b : Word) : subOverflow 32 a b false = true ↔ (a - b).toInt ≠ a.toInt - b.toInt := by
  have hlt := (a - b).toInt_lt
  have hle := (a - b).le_toInt
  rw [subOverflow, outsideSigned_iff, BitVec.setWidth_eq, BitVec.setWidth_eq]
  rcases toInt_sub_cases a b with h | ⟨h, hb⟩ | ⟨h, hb⟩ <;> simp only [Bool.toNat_false] <;> omega

/-- Bit 31 is the sign. -/
theorem getLsbD_31_iff (v : Word) : v.getLsbD 31 = true ↔ v.toInt < 0 := by
  rw [← decide_eq_true_iff (p := v.toInt < 0), ← BitVec.msb_eq_toInt, BitVec.msb_eq_getLsbD_last]

theorem compared_of_exec {d n m : RegNum} {mode : AddMode} {s t : State} (hmode : mode = .cmp ∨ mode = .sub ∧ d ≠ 2)
    (h : exec (.addr d n m mode) s = .next t) : Compared t (s.readReg n) (s.readReg m) := by
  have hflag : ∀ g, t.flag g =
      ((s.flagsSub (s.readReg n) (s.readReg m) false).flagsResult (s.readReg n - s.readReg m)).flag g := by
    rcases hmode with rfl | ⟨rfl, hd⟩
    · cases h; exact fun _ => rfl
    · cases h; exact fun _ => flag_writeReg_other _ _ hd _
  constructor
  · rw [hflag, flag_flagsResult, beq_iff_eq, BitVec.sub_eq_iff_eq_add]
    simp
  · rw [hflag, flag_flagsResult]
    exact getLsbD_31_iff _
  · rw [hflag, flagsResult_carryFlags _ _ _ (by decide), flag_flagsSub]
    simp [subBorrow]
  · rw [hflag, flagsResult_carryFlags _ _ _ (by decide), flag_flagsSub]
    exact subOverflow_iff ..

/-- S32 and O32 agree when the first number is not below the second, both signed. -/
theorem Compared.signed_ge {t : State} {a b : Word} (h : Compared t a b) :
    t.flag .s32 = t.flag .o32 ↔ b.toInt ≤ a.toInt := by
  have halt := a.toInt_lt
  have hale := a.le_toInt
  have hblt := b.toInt_lt
  have hble := b.le_toInt
  rw [Bool.eq_iff_iff, h.s32, h.o32]
  rcases toInt_sub_cases a b with h | ⟨h, hb⟩ | ⟨h, hb⟩ <;> omega

/-! ### The conditional jumps (R167, R235 to R250) -/

/-- What each conditional jump asks of the flags (R235 to R250). -/
def FlagsSay (t : State) : Condition → Prop
  | .z => t.flag .z = true
  | .nz => t.flag .z = false
  | .s => t.flag .s32 = true
  | .ns => t.flag .s32 = false
  | .o => t.flag .o32 = true
  | .no => t.flag .o32 = false
  | .c | .l => t.flag .c32 = true
  | .nc | .ge => t.flag .c32 = false
  | .sg => t.flag .z = false ∧ t.flag .s32 = t.flag .o32
  | .sge => t.flag .s32 = t.flag .o32
  | .sl => t.flag .s32 ≠ t.flag .o32
  | .sle => t.flag .z = true ∨ t.flag .s32 ≠ t.flag .o32
  | .g => t.flag .c32 = false ∧ t.flag .z = false
  | .le => t.flag .c32 = true ∨ t.flag .z = true

/-- The bit of R02 a conditional jump tests is a flag, or for JSGE and JSL bit 11, which is always 0 (R30, R31). -/
theorem jumpTaken_iff_flagsSay (t : State) (cond : Condition) :
    JumpTaken t cond.test.1 cond.test.2.2 cond.test.2.1 2 ↔ FlagsSay t cond := by
  have hz : (t.readReg 2).getLsbD (0 : BitNum).val = t.flag .z := (flag_eq_readReg t .z).symm
  have hs : (t.readReg 2).getLsbD (3 : BitNum).val = t.flag .s32 := (flag_eq_readReg t .s32).symm
  have ho : (t.readReg 2).getLsbD (6 : BitNum).val = t.flag .o32 := (flag_eq_readReg t .o32).symm
  have hc : (t.readReg 2).getLsbD (9 : BitNum).val = t.flag .c32 := (flag_eq_readReg t .c32).symm
  have h11 : (t.readReg 2).getLsbD (11 : BitNum).val = false := by
    obtain ⟨-, -, -, -, -, -, -, -, -, -, -, -, hzero, -⟩ := flagsRegisterLayout t
    exact hzero 11 (by decide) (by decide)
  cases cond <;> simp only [Condition.test, JumpTaken, FlagsSay, hz, hs, ho, hc, h11, Bool.false_eq_true, true_and,
    false_or, ne_eq]

/-- After a comparison the flags say how the numbers compare. -/
theorem Compared.flagsSay_iff {t : State} {a b : Word} (h : Compared t a b) (cond : Condition) :
    FlagsSay t cond ↔ ComparesTo cond a b := by
  have hsigned := h.signed_ge
  have hzInt : t.flag .z = true ↔ a.toInt = b.toInt := h.z.trans BitVec.toInt_inj.symm
  have hzNat : t.flag .z = true ↔ a.toNat = b.toNat := h.z.trans BitVec.toNat_inj.symm
  cases cond <;> simp only [FlagsSay, ComparesTo, ← Bool.not_eq_true, ne_eq]
  case z => exact h.z
  case nz => exact not_congr h.z
  case s => exact h.s32
  case ns => rw [h.s32, not_lt]
  case o => exact h.o32
  case no => rw [h.o32, not_not]
  case c | l => exact h.c32
  case nc | ge => rw [h.c32, not_lt]
  case sg => rw [hzInt, hsigned]; omega
  case sge => exact hsigned
  case sl => rw [hsigned, not_le]
  case sle => rw [hzInt, hsigned]; omega
  case g => rw [h.c32, hzNat]; omega
  case le => rw [h.c32, hzNat]; omega

/-- An offset with its two low bits cleared, as the field and two zeros. -/
theorem offsetField_append (offset : BitVec 16) :
    (offsetField offset ++ 0b00#2 : BitVec 16) = offset &&& 0xFFFC := by
  have hmask : ∀ j : Fin 16, (0xFFFC : BitVec 16).getLsbD j.val = decide (2 ≤ j.val) := by decide
  apply BitVec.eq_of_getLsbD_eq
  intro j hj
  rw [BitVec.getLsbD_and, hmask ⟨j, hj⟩, offsetField, BitVec.getLsbD_append, BitVec.getLsbD_extractLsb']
  by_cases h : j < 2
  · simp [h, show ¬2 ≤ j by omega]
  · simp [h, show 2 ≤ j by omega, show j - 2 < 14 by omega, show 2 + (j - 2) = j by omega]

/-- Settles O41: the flags a comparison leaves, what each conditional jump asks of them, and the two put together. -/
theorem conditionalJumpsDecideComparison : Obligations.ConditionalJumpsDecideComparison := by
  intro cond offset d n m mode s t t' hmode h hr02
  have hcompared := compared_of_exec hmode h
  have hflag : ∀ f, t'.flag f = t.flag f := flag_congr hr02
  have hcompared' : Compared t' (s.readReg n) (s.readReg m) := by
    constructor <;> rw [hflag]
    exacts [hcompared.z, hcompared.s32, hcompared.c32, hcompared.o32]
  have hiff := (jumpTaken_iff_flagsSay t' cond).trans (hcompared'.flagsSay_iff cond)
  refine ⟨fun hc => ?taken, fun hc => exec_jb_of_not_taken _ (hiff.not.mpr hc)⟩
  case taken =>
    refine ⟨_, exec_jb_of_taken _ (hiff.mpr hc), ?_, frame_writeReg t' pcReg _⟩
    rw [← offsetField_append]
    exact readReg_writeReg_same t' pcReg _

/-! ### A jump to itself (R296) -/

/-- The later of two writes to a register stands. -/
theorem writeReg_writeReg_same (s : State) (r : RegNum) (v w : Word) :
    (s.writeReg r v).writeReg r w = s.writeReg r w := by
  simp only [State.writeReg, Vector.set_set]

/-- With an empty pipeline the advance of R00 is a write to it. -/
theorem advance_of_stale_none {s : State} (hstale : s.stale = none) : s.advance = s.writeReg pcReg (s.pc + 4) := by
  obtain ⟨regs, mem, map, stale, draws⟩ := s
  cases hstale
  rfl

/-- Advancing R00 and then jumping back to where it was leaves the state, with an empty pipeline and R00 a multiple
of 4. -/
theorem advance_writeReg_pc {s : State} (hpc : s.pcAligned = true) (hstale : s.stale = none) :
    s.advance.writeReg pcReg s.pc = s := by
  rw [advance_of_stale_none hstale, writeReg_writeReg_same]
  exact writeReg_of_storedIn_eq (pc_and_pcMask hpc)

/-- R00 advanced is 4 higher where it is a multiple of 4. -/
theorem advance_pc_of_aligned {s : State} (hpc : s.pcAligned = true) : s.advance.pc = s.pc + 4 := by
  rw [advance_pc]
  exact and_pcMask_of_dvd (add_mod_four (pc_mod_four hpc) rfl)

/-- Noting the pipeline after an instruction that left memory empties it. -/
theorem notePipeline_self {s : State} (hstale : s.stale = none) : s.notePipeline s.mem = s := by
  rw [State.notePipeline, if_pos rfl, ← hstale]

/-- The instruction a self jump executes, and where it jumps. -/
theorem selfJump_exec {s : State} (hpc : s.pcAligned = true) (h : s.selfJump = true) :
    s.accessOk s.pc 4 = true ∧ ∃ i, decodeWord s.fetchWord = .ok i ∧
      exec i s.advance = .next (s.advance.writeReg pcReg s.pc) := by
  rw [State.selfJump, Bool.and_eq_true] at h
  obtain ⟨hok, h⟩ := h
  refine ⟨hok, ?_⟩
  split at h
  · next addr30 hi => exact ⟨_, hi, by rw [exec_jmpd, beq_iff_eq.mp h]⟩
  · next mode v bit n addr hi =>
    rw [Bool.and_eq_true, beq_iff_eq] at h
    obtain ⟨hoffset, hcond⟩ := h
    refine ⟨_, hi, ?_⟩
    rw [exec_jb_taken hcond, hoffset, ← pc_eq_readReg, advance_pc_of_aligned hpc, ← BitVec.sub_eq_add_neg,
      BitVec.add_sub_cancel]
  · cases h

/-- Settles O50: the jump writes back to R00 what it held before the advance, and nothing is left in the pipeline. -/
theorem selfJumpMakesNoProgress : Obligations.SelfJumpMakesNoProgress := by
  refine ⟨fun s hpc hstale h => ⟨s, ?_, rfl⟩, fun s hp => ?_⟩
  · obtain ⟨hok, i, hi, hexec⟩ := selfJump_exec hpc h
    rw [step_of_decode hok hi, hexec, advance_writeReg_pc hpc hstale, settle_next, notePipeline_self hstale]
  · rw [State.selfJump, (not_present_iff ..).mp hp, Bool.false_and]

end Sys2Proof
